-- ==== Sys2Proof/Word.lean ====
section
/-! DEFINITION. The word and byte types (00_scope R8, R11): every register, memory word and address is an
unsigned 16-bit value, and arithmetic on it is modulo 2^16. -/

namespace Sys2Proof

/-- The machine's native addressable unit, 16 bits (00_scope R17). -/
abbrev Word := BitVec 16

/-- A byte of the key buffer, the output stream or a boot image. -/
abbrev Byte := BitVec 8

end Sys2Proof
end

