-- ==== Sys2Proof/Syntax.lean ====
section
/-! DEFINITION. The instructions, one constructor per row of spec/opcode_table.json, with the operand fields of
30_encoding R81. Bits the decoder ignores (R89) are no operands. -/

namespace Sys2Proof

/-- A 3-bit register field: it names R0 to R7 directly (30_encoding R87). -/
abbrev Reg := BitVec 3

inductive Instr where
  /-- BR (40_control R120). -/
  | br (nzp : BitVec 3) (off9 : BitVec 9)
  /-- ADD, register form (41_operate R142). -/
  | add (dr sr1 sr2 : Reg)
  /-- ADD, immediate form (41_operate R143). -/
  | addi (dr sr1 : Reg) (imm5 : BitVec 5)
  /-- LD (42_data_movement R161). -/
  | ld (dr : Reg) (off9 : BitVec 9)
  /-- ST (42_data_movement R162). -/
  | st (sr : Reg) (off9 : BitVec 9)
  /-- JSR (40_control R122). -/
  | jsr (off11 : BitVec 11)
  /-- JSRR (40_control R124). -/
  | jsrr (base : Reg)
  /-- AND, register form (41_operate R144). -/
  | and (dr sr1 sr2 : Reg)
  /-- AND, immediate form (41_operate R145). -/
  | andi (dr sr1 : Reg) (imm5 : BitVec 5)
  /-- LDR (42_data_movement R163). -/
  | ldr (dr base : Reg) (off6 : BitVec 6)
  /-- STR (42_data_movement R164). -/
  | str (sr base : Reg) (off6 : BitVec 6)
  /-- RTI, executed as a no-op (44_unimplemented R220). -/
  | rti
  /-- NOT (41_operate R146). -/
  | not (dr sr : Reg)
  /-- LDI (42_data_movement R165). -/
  | ldi (dr : Reg) (off9 : BitVec 9)
  /-- STI (42_data_movement R166). -/
  | sti (sr : Reg) (off9 : BitVec 9)
  /-- JMP (40_control R126). The words with BR = 7 decode to `ret`. -/
  | jmp (base : Reg)
  /-- RET, JMP through R7 (40_control R127). -/
  | ret
  /-- RES, the reserved opcode 1101, executed as a no-op (44_unimplemented R221). -/
  | res
  /-- LEA (42_data_movement R167). -/
  | lea (dr : Reg) (off9 : BitVec 9)
  /-- TRAP 0x20 (43_trap R191, R192). -/
  | trapGetc
  /-- TRAP 0x21 (43_trap R193). -/
  | trapOut
  /-- TRAP 0x22 (43_trap R194). -/
  | trapPuts
  /-- TRAP 0x23 (43_trap R195, R196). -/
  | trapIn
  /-- TRAP 0x24 (43_trap R197). -/
  | trapPutsp
  /-- TRAP 0x25 (43_trap R198). -/
  | trapHalt
  /-- TRAP, the dispatcher (43_trap R190). The words with a vector of 0x20 to 0x25 decode to the six above. -/
  | trap (trapvect8 : BitVec 8)
  deriving DecidableEq, Repr

end Sys2Proof
end

