-- ==== Sys2Proof/WellFormed.lean ====
section
/-! DEFINITION. Which terms of Instr are the one spelling of a word. The operand types fix every width, so two
checks remain: RET has its own constructor, and so have the six service routines (log entry 13). -/

namespace Sys2Proof

/-- The vectors 43_trap R190 serves: 0x20 to 0x25. -/
def isServiceVector (v : BitVec 8) : Bool := 0x20#8 ≤ v && v ≤ 0x25#8

/-- DESIGN CHOICE, safe (log entry 13): the terms that decoding produces. Ill-formed terms have a meaning too, the one of
the word they spell. -/
def Instr.wellFormed : Instr → Bool
  | .br _ _ => true
  | .add _ _ _ => true
  | .addi _ _ _ => true
  | .ld _ _ => true
  | .st _ _ => true
  | .jsr _ => true
  | .jsrr _ => true
  | .and _ _ _ => true
  | .andi _ _ _ => true
  | .ldr _ _ _ => true
  | .str _ _ _ => true
  | .rti => true
  | .not _ _ => true
  | .ldi _ _ => true
  | .sti _ _ => true
  | .jmp base => base != 7#3
  | .ret => true
  | .res => true
  | .lea _ _ => true
  | .trapGetc => true
  | .trapOut => true
  | .trapPuts => true
  | .trapIn => true
  | .trapPutsp => true
  | .trapHalt => true
  | .trap v => !isServiceVector v

end Sys2Proof
end

