-- ==== Sys2Proof/Decode.lean ====
section
/-! DEFINITION. The decoder, the bits it ignores, and the encoder, from the formats of 30_encoding R81 to R90. -/

namespace Sys2Proof

/-! ## Fields (30_encoding R81 to R84) -/

/-- instr[15:12]. -/
def opcodeField (w : Word) : BitVec 4 := w.extractLsb' 12 4
/-- instr[11:9]: DR, SR of the stores, or nzp. -/
def field11to9 (w : Word) : BitVec 3 := w.extractLsb' 9 3
/-- instr[8:6]: SR1, BR, or SR of NOT. -/
def field8to6 (w : Word) : BitVec 3 := w.extractLsb' 6 3
/-- instr[2:0]: SR2. -/
def sr2Field (w : Word) : BitVec 3 := w.extractLsb' 0 3
/-- instr[4:0]. -/
def imm5Field (w : Word) : BitVec 5 := w.extractLsb' 0 5
/-- instr[5:0]. -/
def off6Field (w : Word) : BitVec 6 := w.extractLsb' 0 6
/-- instr[8:0]. -/
def off9Field (w : Word) : BitVec 9 := w.extractLsb' 0 9
/-- instr[10:0]. -/
def off11Field (w : Word) : BitVec 11 := w.extractLsb' 0 11
/-- instr[7:0]. -/
def trapvect8Field (w : Word) : BitVec 8 := w.extractLsb' 0 8

/-! ## Decoding (30_encoding R85, R88, R103) -/

/-- TRAP words: dispatch on instr[7:0] (43_trap R190). -/
def decodeTrap (v : BitVec 8) : Instr :=
  if v = 0x20#8 then .trapGetc
  else if v = 0x21#8 then .trapOut
  else if v = 0x22#8 then .trapPuts
  else if v = 0x23#8 then .trapIn
  else if v = 0x24#8 then .trapPutsp
  else if v = 0x25#8 then .trapHalt
  else .trap v

/-- Every 16-bit word decodes to exactly one instruction form (30_encoding R90, R92): the decoder is total and rejects
nothing. -/
def decode (w : Word) : Instr :=
  let op := opcodeField w
  if op = 0b0000#4 then .br (field11to9 w) (off9Field w)
  else if op = 0b0001#4 then
    if w.getLsbD 5 then .addi (field11to9 w) (field8to6 w) (imm5Field w)
    else .add (field11to9 w) (field8to6 w) (sr2Field w)
  else if op = 0b0010#4 then .ld (field11to9 w) (off9Field w)
  else if op = 0b0011#4 then .st (field11to9 w) (off9Field w)
  else if op = 0b0100#4 then
    if w.getLsbD 11 then .jsr (off11Field w) else .jsrr (field8to6 w)
  else if op = 0b0101#4 then
    if w.getLsbD 5 then .andi (field11to9 w) (field8to6 w) (imm5Field w)
    else .and (field11to9 w) (field8to6 w) (sr2Field w)
  else if op = 0b0110#4 then .ldr (field11to9 w) (field8to6 w) (off6Field w)
  else if op = 0b0111#4 then .str (field11to9 w) (field8to6 w) (off6Field w)
  else if op = 0b1000#4 then .rti
  else if op = 0b1001#4 then .not (field11to9 w) (field8to6 w)
  else if op = 0b1010#4 then .ldi (field11to9 w) (off9Field w)
  else if op = 0b1011#4 then .sti (field11to9 w) (off9Field w)
  else if op = 0b1100#4 then
    if field8to6 w = 7#3 then .ret else .jmp (field8to6 w)
  else if op = 0b1101#4 then .res
  else if op = 0b1110#4 then .lea (field11to9 w) (off9Field w)
  else decodeTrap (trapvect8Field w)

/-- Two bytes as a word, the first in bits 15:8, as a boot image stores words (20_memory R57). -/
def bigEndian (hi lo : Byte) : Word := hi ++ lo

/-- Why a byte string gives no instruction. -/
inductive DecodeReject where
  /-- Fewer than two bytes are left: an instruction is one 16-bit word (30_encoding R80). Safe. -/
  | truncated
  deriving DecidableEq, Repr

/-- The instruction at the head of a byte string in image order, and the bytes after it. -/
def decodeBytes : List Byte → Except DecodeReject (Instr × List Byte)
  | hi :: lo :: rest => .ok (decode (bigEndian hi lo), rest)
  | _ => .error .truncated

/-- The instruction whose bits, numbered as spec/opcode_table.json numbers them, are w: one word of 16 bits. -/
def decodeTableWord (nbits w : Nat) : Option Instr :=
  some (decode (BitVec.ofNat 16 (w % 2 ^ nbits)))

/-! ## Ignored bits (30_encoding R89) -/

/-- The bits of w the decoder ignores, as a mask. -/
def ignoredBits (w : Word) : Word :=
  let op := opcodeField w
  if op = 0b0001#4 ∨ op = 0b0101#4 then (if w.getLsbD 5 then 0x0000#16 else 0x0018#16)
  else if op = 0b0100#4 then (if w.getLsbD 11 then 0x0000#16 else 0x063F#16)
  else if op = 0b1001#4 then 0x003F#16
  else if op = 0b1100#4 then 0x0E3F#16
  else if op = 0b1111#4 then 0x0F00#16
  else if op = 0b1000#4 ∨ op = 0b1101#4 then 0x0FFF#16
  else 0x0000#16

/-! ## Encoding -/

/-- The word of an instruction, with 0 in every ignored bit (DESIGN CHOICE, safe, log entry 14). -/
def encode : Instr → Word
  | .br nzp off9 => 0b0000#4 ++ nzp ++ off9
  | .add dr sr1 sr2 => 0b0001#4 ++ dr ++ sr1 ++ 0b000#3 ++ sr2
  | .addi dr sr1 imm5 => 0b0001#4 ++ dr ++ sr1 ++ 0b1#1 ++ imm5
  | .ld dr off9 => 0b0010#4 ++ dr ++ off9
  | .st sr off9 => 0b0011#4 ++ sr ++ off9
  | .jsr off11 => 0b0100#4 ++ 0b1#1 ++ off11
  | .jsrr base => 0b0100#4 ++ 0b000#3 ++ base ++ 0b000000#6
  | .and dr sr1 sr2 => 0b0101#4 ++ dr ++ sr1 ++ 0b000#3 ++ sr2
  | .andi dr sr1 imm5 => 0b0101#4 ++ dr ++ sr1 ++ 0b1#1 ++ imm5
  | .ldr dr base off6 => 0b0110#4 ++ dr ++ base ++ off6
  | .str sr base off6 => 0b0111#4 ++ sr ++ base ++ off6
  | .rti => 0x8000#16
  | .not dr sr => 0b1001#4 ++ dr ++ sr ++ 0b000000#6
  | .ldi dr off9 => 0b1010#4 ++ dr ++ off9
  | .sti sr off9 => 0b1011#4 ++ sr ++ off9
  | .jmp base => 0b1100#4 ++ 0b000#3 ++ base ++ 0b000000#6
  | .ret => 0xC1C0#16
  | .res => 0xD000#16
  | .lea dr off9 => 0b1110#4 ++ dr ++ off9
  | .trapGetc => 0xF020#16
  | .trapOut => 0xF021#16
  | .trapPuts => 0xF022#16
  | .trapIn => 0xF023#16
  | .trapPutsp => 0xF024#16
  | .trapHalt => 0xF025#16
  | .trap v => 0b1111#4 ++ 0b0000#4 ++ v

end Sys2Proof
end

