-- ==== Sys2Proof/Config.lean ====
section
/-! DEFINITION. The parameters the spec leaves open (00_scope R9, 92_eei_decisions D9, D10, D15). They are plain data:
the first two stand in State, because the form of `step` takes no other argument; the third is an argument of
`State.start`. -/

namespace Sys2Proof.Config

/-- `P_SINK_MAY_FAIL` (D9) and `P_STOP_CANCELS_WAIT` (D10). No step changes them. -/
structure Params where
  /-- If false, every Emit answers ok, whatever answer the sink has lined up. -/
  sinkMayFail : Bool
  /-- `some true`: a stopped key wait cancels. `some false`: it waits for the next byte. `none`: unset, both are
  admitted, and the schedule chooses. -/
  stopCancelsWait : Option Bool
  deriving DecidableEq, Repr

/-- `P_GPR_RESET` (D15): what R0 to R7 hold after start. -/
inductive GprReset where
  | zero
  | unknown
  deriving DecidableEq, Repr

end Sys2Proof.Config
end

