-- ==== Sys2Proof/Machine/State.lean ====
section
/-! DEFINITION. The state of the machine as plain data (10_state), the reasons a step can stop, and the state after
reset (10_state R38). -/

namespace Sys2Proof.Machine

/-- The two service routines that wait for a key (10_state R34). -/
inductive WaitRoutine where
  | getc
  /-- The routine IN. -/
  | input
  deriving DecidableEq, Repr

/-- The core phase (10_state R34). -/
inductive Phase where
  | boundary
  | waitKey (r : WaitRoutine)
  | exited
  deriving DecidableEq, Repr

/-- Why a run ends (60_exceptions R254). -/
inductive StopCause where
  | halt
  | stopRequest
  | sinkFailure
  deriving DecidableEq, Repr

/-- The sink's answer to one Emit (60_exceptions R253). -/
inductive SinkAnswer where
  | ok
  | error
  deriving DecidableEq, Repr

/-- Whose step comes next (60_exceptions R260). The sink answers during an Emit and takes no turn. -/
inductive Agent where
  /-- A loop iteration, or finishing a key wait. -/
  | core
  /-- The core cancelling a stopped key wait (60_exceptions R251). -/
  | cancel
  | keyboard
  | stop
  deriving DecidableEq, Repr

/-- The memory array (10_state R31) as the words that are not 0x0000, by rising word address. The cell is a word, the
spec's addressable unit: there is no byte address (20_memory R50, R57; log entry 1). -/
abbrev Memory := List (Nat × Word)

structure State where
  /-- R0 to R7 (10_state R20). -/
  regs : Vector Word 8
  /-- The program counter (10_state R23). -/
  pc : Word
  /-- The condition code: bit 2 N, bit 1 Z, bit 0 P (10_state R25). -/
  cc : BitVec 3
  /-- All of memory, KBSR (0xFE00) and KBDR (0xFE02) among it (10_state R30, R31). -/
  mem : Memory
  /-- The key buffer: empty or one byte (10_state R32). -/
  keyBuf : Option Byte
  /-- The running flag (10_state R33). -/
  running : Bool
  /-- The core phase (10_state R34). -/
  phase : Phase
  /-- The sink_error flag (10_state R35). -/
  sinkError : Bool
  /-- The output stream, first byte first (10_state R36). -/
  out : List Byte
  /-- The rule that cleared `running`, once one has (60_exceptions R254; log entry 9). -/
  cause : Option StopCause
  /-- A stop has been requested: the keyboard agent has ended (60_exceptions R242, R260; log entry 10). -/
  stopRequested : Bool
  /-- The two open parameters (00_scope R9; log entry 4). No step changes them. -/
  params : Config.Params
  /-- kbd_in: the host's input bytes not yet in the key buffer (60_exceptions R242; log entry 5). -/
  kbdIn : List Byte
  /-- The sink's answers to the Emits to come, next first; ok once the list is used up (log entry 5). -/
  sinkAnswers : List SinkAnswer
  /-- Whose turn comes next, next first (log entries 5, 6). -/
  schedule : List Agent
  deriving DecidableEq, Repr

/-- Why the machine stops. -/
inductive Fault where
  /-- The hang of 43_trap R200: PUTS or PUTSP goes round the whole memory and no zero word can be reached. Raised by
  `servicePuts` and `servicePutsp` only. Safe: the hardware has no next state there (93_implementation_defined: "a
  hang, no step to `Exited`"). Only states with KBSR bits 14:0 not zero get here, and no run reaches one
  (log entry 8). -/
  | serviceNeverEnds
  deriving DecidableEq, Repr

/-- Why an instruction has no meaning. -/
inductive Refusal where
  /-- Raised by an arm of `exec` whose instruction has no meaning yet. No arm does: every instruction is modelled. Safe. -/
  | notModelled (mnemonic : String)
  deriving DecidableEq, Repr

/-- The machine after `start`, before any image (10_state R38): memory all zero, PC = 0x3000, CC = ZRO. The four host-side
fields are the model's own (log entries 4, 5). -/
def State.reset : State where
  regs := Vector.replicate 8 0x0000#16
  pc := 0x3000#16
  cc := 0b010#3
  mem := []
  keyBuf := none
  running := true
  phase := .boundary
  sinkError := false
  out := []
  cause := none
  stopRequested := false
  params := { sinkMayFail := true, stopCancelsWait := none }
  kbdIn := []
  sinkAnswers := []
  schedule := []

end Sys2Proof.Machine
end

