-- ==== Sys2Proof/Machine/Flags.lean ====
section
/-! DEFINITION. The condition code and the flag rule (10_state R25, 41_operate R140). -/

namespace Sys2Proof.Machine

def ccPos : BitVec 3 := 0b001#3
def ccZro : BitVec 3 := 0b010#3
def ccNeg : BitVec 3 := 0b100#3

/-- The flag of a 16-bit value (41_operate R140). -/
def flagOf (v : Word) : BitVec 3 :=
  if v = 0x0000#16 then ccZro else if v.getLsbD 15 then ccNeg else ccPos

/-- `SetCC(v)` (41_operate R140). -/
def State.setCC (s : State) (v : Word) : State := { s with cc := flagOf v }

end Sys2Proof.Machine
end

