-- ==== Sys2Proof/Machine/Memory.lean ====
section
/-! DEFINITION. The memory array (10_state R31): reading and writing a raw word, and the canonical form of the list
that holds it. -/

namespace Sys2Proof.Machine

/-- KBSR, the keyboard status register (10_state R28). -/
def kbsrAddr : Word := 0xFE00#16
/-- KBDR, the keyboard data register (10_state R29). -/
def kbdrAddr : Word := 0xFE02#16

/-- What an address nothing has written reads as: memory is allocated zero-filled (10_state R31). -/
def Memory.unlisted : Word := 0x0000#16

/-- Mem[a]. -/
def Memory.read : Memory → Word → Word
  | [], _ => Memory.unlisted
  | (k, v) :: rest, a => if k = a.toNat then v else Memory.read rest a

/-- A new cell in its place by rising address. -/
def Memory.insertCell (k : Nat) (v : Word) : Memory → Memory
  | [] => [(k, v)]
  | (k', v') :: rest => if k < k' then (k, v) :: (k', v') :: rest else (k', v') :: Memory.insertCell k v rest

/-- Mem[a] <- v, keeping the canonical form: a word equal to the unlisted value has no cell. -/
def Memory.write (m : Memory) (a v : Word) : Memory :=
  let cleared := m.filter (fun c => c.1 != a.toNat)
  if v = Memory.unlisted then cleared else Memory.insertCell a.toNat v cleared

/-- The canonical form from address `lo` up: addresses strictly rising and below 2^16, no cell equal to what an unlisted
address reads as. -/
def Memory.wfFrom : Nat → Memory → Bool
  | _, [] => true
  | lo, (k, v) :: rest => decide (lo ≤ k) && decide (k < 0x10000) && v != Memory.unlisted && Memory.wfFrom (k + 1) rest

/-- The canonical form: equal memories are equal lists. -/
def Memory.wf (m : Memory) : Bool := Memory.wfFrom 0 m

end Sys2Proof.Machine
end

