-- ==== Sys2Proof/Machine/Ops.lean ====
section
/-! DEFINITION. The named operations every meaning is made of: registers (00_scope R13), MemRead, MemWrite and DevSet
(20_memory R51 to R53), the key buffer and Emit (00_scope R15, 60_exceptions R253). The core raises no exception
(60_exceptions R230), so there is none to take and none to return from. -/

namespace Sys2Proof.Machine

/-! ## Registers -/

/-- R[r]. -/
def State.reg (s : State) (r : Reg) : Word := s.regs[r.toNat]'(r.isLt)

/-- R[r] <- v. None is hardwired (10_state R20). -/
def State.setReg (s : State) (r : Reg) (v : Word) : State := { s with regs := s.regs.set r.toNat v r.isLt }

/-- PC <- a. -/
def State.setPc (s : State) (a : Word) : State := { s with pc := a }

/-- R[dr] <- v, then SetCC(R[dr]): what every writer of CC does (41_operate R141). -/
def State.setRegFlags (s : State) (dr : Reg) (v : Word) : State := (s.setReg dr v).setCC ((s.setReg dr v).reg dr)

/-! ## Memory (20_memory R51 to R53) -/

/-- Mem[a], the raw word, with no side effect (00_scope R14). -/
def State.memAt (s : State) (a : Word) : Word := s.mem.read a

/-- KBSR = Mem[0xFE00] (10_state R30). -/
def State.kbsr (s : State) : Word := s.memAt kbsrAddr
/-- KBDR = Mem[0xFE02] (10_state R30). -/
def State.kbdr (s : State) : Word := s.memAt kbdrAddr

/-- Mem[a] <- v. -/
def State.setMem (s : State) (a v : Word) : State := { s with mem := s.mem.write a v }

/-- `DevSet(a, v)`, the device path (20_memory R53), used with a = 0xFE00 or a = 0xFE02 only. -/
def devSet (s : State) (a v : Word) : State := s.setMem a v

/-- `MemRead(a, 16)`, the load path (20_memory R51): the word, and the state with KBSR.READY cleared if a is KBDR. -/
def memRead (s : State) (a : Word) : Word × State :=
  let s' := if a = kbdrAddr then devSet s kbsrAddr (s.kbsr &&& 0x7FFF#16) else s
  (s'.memAt a, s')

/-- `MemWrite(a, 16, v)`, the store path (20_memory R52): KBSR and KBDR drop it. -/
def memWrite (s : State) (a v : Word) : State :=
  if a = kbsrAddr ∨ a = kbdrAddr then s else s.setMem a v

/-! ## Bytes of a word (20_memory R57) -/

/-- `zext_8(b)`. -/
def zext8 (b : Byte) : Word := b.setWidth 16
/-- w[7:0]. -/
def lowByte (w : Word) : Byte := w.extractLsb' 0 8
/-- w[15:8]. -/
def highByte (w : Word) : Byte := w.extractLsb' 8 8

/-! ## The end of a run (10_state R33, 60_exceptions R254) -/

/-- `running <- false`. The cause is the rule under which the flag falls; a rule that finds it false already has no
effect on it (DEDUCED from 95_test_vectors S4, unsafe, log entry 9). -/
def clearRunning (c : StopCause) (s : State) : State :=
  if s.running then { s with running := false, cause := some c } else s

/-! ## Output (60_exceptions R253) -/

/-- What an Emit, or a row of them, leaves: the sink took every byte, or it failed and the core has exited. -/
inductive Emission where
  | sent (s : State)
  | failed (s : State)
  deriving DecidableEq, Repr

/-- Go on with the rest of the instruction, unless the sink failed: then the rest is not performed. -/
def Emission.thenDo (e : Emission) (rest : State → State) : State :=
  match e with
  | .sent s => rest s
  | .failed s => s

/-- The sink's answer to the next Emit: an error counts only where P_SINK_MAY_FAIL is true. -/
def sinkFails (s : State) : Bool := s.sinkAnswers.head? == some .error && s.params.sinkMayFail

/-- The state after a failing Emit: sink_error <- 1, running <- false, phase <- Exited. -/
def sinkFailure (s : State) : State :=
  { clearRunning .sinkFailure s with sinkError := true, phase := .exited }

/-- `Emit(b)`: b goes to the end of the output stream if the sink takes it. -/
def emit (b : Byte) (s : State) : Emission :=
  let t := { s with sinkAnswers := s.sinkAnswers.tail }
  if sinkFails s then .failed (sinkFailure t) else .sent { t with out := t.out ++ [b] }

/-- Emit the bytes in order, stopping at the first failing write (43_trap R201). -/
def emitAll : List Byte → State → Emission
  | [], s => .sent s
  | b :: bs, s =>
    match emit b s with
    | .sent t => emitAll bs t
    | .failed t => .failed t

end Sys2Proof.Machine
end

