-- ==== Sys2Proof/Machine/Agents.lean ====
section
/-! DEFINITION. The keyboard register controller, the steps of the keyboard agent and of the stop agent, and the
second phases of GETC and IN with their cancellation (60_exceptions R240 to R251, 43_trap R192, R196). -/

namespace Sys2Proof.Machine

/-! ## Keyboard (60_exceptions R240, R242) -/

/-- KBSR.READY (10_state R28). -/
def State.ready (s : State) : Bool := s.kbsr.getLsbD 15

/-- Take the byte b out of the key buffer into KBDR: KBSR.READY <- 1, KBDR <- zext_8(b) (R240). -/
def stageByte (b : Byte) (s : State) : State :=
  let taken := { s with keyBuf := none }
  let flagged := devSet taken kbsrAddr (taken.kbsr ||| 0x8000#16)
  devSet flagged kbdrAddr (zext8 b)

/-- `KeyboardService()` (R240): stage a waiting byte into KBDR if READY is clear; it never waits. -/
def keyboardService (s : State) : State :=
  match s.keyBuf with
  | some b => if s.ready then s else stageByte b s
  | none => s

/-- Is the core in a key wait that, after a stop, may go on to the next byte (R251: P_STOP_CANCELS_WAIT false or
unset)? -/
def waitsForKey (s : State) : Bool :=
  match s.phase with
  | .waitKey _ => s.params.stopCancelsWait != some true
  | _ => false

/-- `KeyAgentStep()` (R242), enabled when the key buffer is empty, input remains and no stop has been requested (R260);
where it is not enabled it changes nothing. DESIGN CHOICE, log entry 18: the spec is at odds with itself on whether a
byte may arrive after a stop; a stopped wait that may go on gets its next byte (R251, D10, 95_test_vectors S3), against
the letter of R242, R260 and D20. -/
def keyAgentStep (s : State) : State :=
  if s.stopRequested && !waitsForKey s then s
  else
    match s.keyBuf, s.kbdIn with
    | none, b :: rest => { s with keyBuf := some b, kbdIn := rest }
    | _, _ => s

/-! ## Stop (60_exceptions R250, R251) -/

/-- The stop agent's step (R250): running <- false, at any time before Exited; it also ends the keyboard agent, but for
the byte a stopped wait may still get (log entry 18). -/
def stopRequest (s : State) : State :=
  if s.phase = .exited then s else { clearRunning .stopRequest s with stopRequested := true }

/-- May a stopped key wait be cancelled? (R251: phase WaitKey, running false, and not excluded by P_STOP_CANCELS_WAIT.) -/
def mayCancel (s : State) : Bool :=
  match s.phase with
  | .waitKey _ => !s.running && s.params.stopCancelsWait != some false
  | _ => false

/-- Cancel a key wait (R251): the core exits, no byte is taken, R0 and CC are not written. -/
def cancelWait (s : State) : State :=
  if mayCancel s then { s with phase := .exited } else s

/-- With P_STOP_CANCELS_WAIT = true a stopped wait cancels (D10; DEDUCED: also with a byte in the buffer, log
entry 12). -/
def mustCancel (s : State) : Bool := mayCancel s && s.params.stopCancelsWait == some true

/-! ## Second phases of GETC and IN (43_trap R192, R196) -/

/-- R[0] <- zext_8(b), SetCC(R[0]), phase <- Boundary. -/
def deliverKey (b : Byte) (s : State) : State :=
  { s.setRegFlags 0#3 (zext8 b) with phase := .boundary }

/-- GETC, second phase (R192), with the byte b in the key buffer. -/
def finishGetc (b : Byte) (s : State) : State := deliverKey b { s with keyBuf := none }

/-- IN, second phase (R196): the byte is echoed before R0 is written. -/
def finishInput (b : Byte) (s : State) : State :=
  (emit b { s with keyBuf := none }).thenDo (deliverKey b)

/-- The core's step in phase WaitKey(r): while the key buffer is empty it holds, which the model shows as an unchanged
state (log entry 7). -/
def waitStep (r : WaitRoutine) (s : State) : State :=
  if mustCancel s then cancelWait s
  else
    match s.keyBuf with
    | none => s
    | some b =>
      match r with
      | .getc => finishGetc b s
      | .input => finishInput b s

end Sys2Proof.Machine
end

