-- ==== Sys2Proof/Machine/Operands.lean ====
section
/-! DEFINITION. Immediates and effective addresses (00_scope R12, 30_encoding R86, 42_data_movement R160). In a meaning
`s.pc` is the incremented PC (10_state R23). -/

namespace Sys2Proof.Machine

/-- `sext_N` of a field that is N bits wide (00_scope R12). -/
def sextField {n : Nat} (f : BitVec n) : Word := f.signExtend 16

/-- `sext_N(v)` of a word: its low N bits, sign-extended (00_scope R12). -/
def sext (n : Nat) (v : Word) : Word := sextField (v.setWidth n)

/-- PC-relative: PC + sext_N(field), modulo 2^16. -/
def pcRelative {n : Nat} (s : State) (off : BitVec n) : Word := s.pc + sextField off

/-- Base + offset: R[BR] + sext_6(off6), modulo 2^16. -/
def baseOffset (s : State) (base : Reg) (off6 : BitVec 6) : Word := s.reg base + sextField off6

end Sys2Proof.Machine
end

