-- ==== Sys2Proof/Machine/Control.lean ====
section
/-! DEFINITION. BR, JSR, JSRR, JMP and RET (40_control R120 to R127). None of them writes CC or touches memory. -/

namespace Sys2Proof.Machine

/-- BR (R120): taken if the mask and CC share a bit. -/
def execBr (nzp : BitVec 3) (off9 : BitVec 9) (s : State) : Host.Outcome State Fault Refusal :=
  .next (if nzp &&& s.cc ≠ 0b000#3 then s.setPc (pcRelative s off9) else s)

/-- R[7] <- PC, the link of JSR and JSRR (10_state R22). -/
def link (s : State) : State := s.setReg 7#3 s.pc

/-- PC <- R[base], read in the state given. -/
def jumpThrough (base : Reg) (s : State) : State := s.setPc (s.reg base)

/-- JSR (R122). -/
def execJsr (off11 : BitVec 11) (s : State) : Host.Outcome State Fault Refusal :=
  .next ((link s).setPc (pcRelative (link s) off11))

/-- JSRR (R124), in the order written: with BR = 7 the base is the new R7 (D6). -/
def execJsrr (base : Reg) (s : State) : Host.Outcome State Fault Refusal :=
  .next (jumpThrough base (link s))

/-- JMP (R126). -/
def execJmp (base : Reg) (s : State) : Host.Outcome State Fault Refusal :=
  .next (jumpThrough base s)

/-- RET (R127). -/
def execRet (s : State) : Host.Outcome State Fault Refusal :=
  .next (jumpThrough 7#3 s)

end Sys2Proof.Machine
end

