-- ==== Sys2Proof/Machine/DataMovement.lean ====
section
/-! DEFINITION. Loads, stores and LEA (42_data_movement R161 to R167). -/

namespace Sys2Proof.Machine

/-- R[dr] <- MemRead(ea, 16), then SetCC(R[dr]). -/
def loadFrom (dr : Reg) (ea : Word) (s : State) : State :=
  let r := memRead s ea
  r.2.setRegFlags dr r.1

/-- LD (R161). -/
def execLd (dr : Reg) (off9 : BitVec 9) (s : State) : Host.Outcome State Fault Refusal :=
  .next (loadFrom dr (pcRelative s off9) s)

/-- ST (R162). -/
def execSt (sr : Reg) (off9 : BitVec 9) (s : State) : Host.Outcome State Fault Refusal :=
  .next (memWrite s (pcRelative s off9) (s.reg sr))

/-- LDR (R163): the address is computed before DR is written. -/
def execLdr (dr base : Reg) (off6 : BitVec 6) (s : State) : Host.Outcome State Fault Refusal :=
  .next (loadFrom dr (baseOffset s base off6) s)

/-- STR (R164). -/
def execStr (sr base : Reg) (off6 : BitVec 6) (s : State) : Host.Outcome State Fault Refusal :=
  .next (memWrite s (baseOffset s base off6) (s.reg sr))

/-- LDI (R165): two reads, the pointer first; each has the KBDR side effect. -/
def execLdi (dr : Reg) (off9 : BitVec 9) (s : State) : Host.Outcome State Fault Refusal :=
  let ptr := memRead s (pcRelative s off9)
  .next (loadFrom dr ptr.1 ptr.2)

/-- STI (R166): the pointer read has the KBDR side effect, and a pointer to a device cell drops the write. -/
def execSti (sr : Reg) (off9 : BitVec 9) (s : State) : Host.Outcome State Fault Refusal :=
  let ptr := memRead s (pcRelative s off9)
  .next (memWrite ptr.2 ptr.1 (ptr.2.reg sr))

/-- LEA (R167): the address alone, with CC set from it; memory is not read. -/
def execLea (dr : Reg) (off9 : BitVec 9) (s : State) : Host.Outcome State Fault Refusal :=
  .next (s.setRegFlags dr (pcRelative s off9))

end Sys2Proof.Machine
end

