-- ==== Sys2Proof/Machine/Operate.lean ====
section
/-! DEFINITION. ADD, AND and NOT (41_operate R142 to R146). Sources are read before the destination is written (R148). -/

namespace Sys2Proof.Machine

/-- ADD, register form (R142). -/
def execAdd (dr sr1 sr2 : Reg) (s : State) : Host.Outcome State Fault Refusal :=
  .next (s.setRegFlags dr (s.reg sr1 + s.reg sr2))

/-- ADD, immediate form (R143). -/
def execAddi (dr sr1 : Reg) (imm5 : BitVec 5) (s : State) : Host.Outcome State Fault Refusal :=
  .next (s.setRegFlags dr (s.reg sr1 + sextField imm5))

/-- AND, register form (R144). -/
def execAnd (dr sr1 sr2 : Reg) (s : State) : Host.Outcome State Fault Refusal :=
  .next (s.setRegFlags dr (s.reg sr1 &&& s.reg sr2))

/-- AND, immediate form (R145). -/
def execAndi (dr sr1 : Reg) (imm5 : BitVec 5) (s : State) : Host.Outcome State Fault Refusal :=
  .next (s.setRegFlags dr (s.reg sr1 &&& sextField imm5))

/-- NOT (R146). -/
def execNot (dr sr : Reg) (s : State) : Host.Outcome State Fault Refusal :=
  .next (s.setRegFlags dr (~~~ (s.reg sr)))

end Sys2Proof.Machine
end

