-- ==== Sys2Proof/Machine/Trap.lean ====
section
/-! DEFINITION. TRAP and the six service routines, which the core executes itself (43_trap R190 to R201). TRAP saves no
register, reads no vector table and leaves the PC at the next instruction. -/

namespace Sys2Proof.Machine

/-! ## The routines that only write (R193, R198) -/

/-- OUT (R193). -/
def serviceOut (s : State) : State := (emit (lowByte (s.reg 0#3)) s).thenDo id

/-- "HALT\n" (R198). -/
def haltText : List Byte := [0x48#8, 0x41#8, 0x4C#8, 0x54#8, 0x0A#8]

/-- HALT (R198): the text, then running <- false. -/
def serviceHalt (s : State) : State := (emitAll haltText s).thenDo (clearRunning .halt)

/-! ## The string routines (R194, R197, R200) -/

/-- The bytes PUTS emits for one non-zero word: bits 7:0. -/
def putsBytes (w : Word) : List Byte := [lowByte w]

/-- The bytes PUTSP emits for one non-zero word: bits 7:0, then bits 15:8 unless they are zero. -/
def putspBytes (w : Word) : List Byte :=
  if highByte w ≠ 0x00#8 then [lowByte w, highByte w] else [lowByte w]

/-- The loop of PUTS and PUTSP for at most `fuel` words from address `a`. It ends at a zero word, or at a failing
write; `none` says it has not ended yet. -/
def stringLoop (bytesOf : Word → List Byte) : Nat → Word → State → Option State
  | 0, _, _ => none
  | fuel + 1, a, s =>
    let r := memRead s a
    if r.1 = 0x0000#16 then some r.2
    else
      match emitAll (bytesOf r.1) r.2 with
      | .failed t => some t
      | .sent t => stringLoop bytesOf fuel (a + 1#16) t

/-- Enough words to know that the loop never ends: one for each answer the sink has lined up, then twice round the
memory. After once round, KBDR has been read and no word changes any more (log entry 8). -/
def stringFuel (s : State) : Nat := s.sinkAnswers.length + 0x20000

/-- PUTS or PUTSP from the address in R0. A loop that never ends is a hang (R200). -/
def serviceString (bytesOf : Word → List Byte) (s : State) : Host.Outcome State Fault Refusal :=
  match stringLoop bytesOf (stringFuel s) (s.reg 0#3) s with
  | some t => .next t
  | none => .fault .serviceNeverEnds

/-! ## The routines that wait for a key: first phases (R191, R195) -/

/-- GETC, first phase (R191). -/
def serviceGetc (s : State) : State := { s with phase := .waitKey .getc }

/-- "Enter a character: ", 19 bytes, no newline (R195). -/
def promptText : List Byte :=
  [0x45#8, 0x6E#8, 0x74#8, 0x65#8, 0x72#8, 0x20#8, 0x61#8, 0x20#8, 0x63#8, 0x68#8, 0x61#8, 0x72#8, 0x61#8, 0x63#8,
   0x74#8, 0x65#8, 0x72#8, 0x3A#8, 0x20#8]

/-- IN, first phase (R195). -/
def serviceIn (s : State) : State :=
  (emitAll promptText s).thenDo (fun t => { t with phase := .waitKey .input })

/-! ## The meanings -/

/-- TRAP 0x20 (R191). Its second phase is `finishGetc` (R192). -/
def execTrapGetc (s : State) : Host.Outcome State Fault Refusal := .next (serviceGetc s)

/-- TRAP 0x21 (R193). -/
def execTrapOut (s : State) : Host.Outcome State Fault Refusal := .next (serviceOut s)

/-- TRAP 0x22 (R194). -/
def execTrapPuts (s : State) : Host.Outcome State Fault Refusal := serviceString putsBytes s

/-- TRAP 0x23 (R195). Its second phase is `finishInput` (R196). -/
def execTrapIn (s : State) : Host.Outcome State Fault Refusal := .next (serviceIn s)

/-- TRAP 0x24 (R197). -/
def execTrapPutsp (s : State) : Host.Outcome State Fault Refusal := serviceString putspBytes s

/-- TRAP 0x25 (R198). -/
def execTrapHalt (s : State) : Host.Outcome State Fault Refusal := .next (serviceHalt s)

/-- TRAP, the dispatcher (R190); a vector outside 0x20 to 0x25 does nothing (R199). -/
def execTrap (trapvect8 : BitVec 8) (s : State) : Host.Outcome State Fault Refusal :=
  if trapvect8 = 0x20#8 then .next (serviceGetc s)
  else if trapvect8 = 0x21#8 then .next (serviceOut s)
  else if trapvect8 = 0x22#8 then serviceString putsBytes s
  else if trapvect8 = 0x23#8 then .next (serviceIn s)
  else if trapvect8 = 0x24#8 then serviceString putspBytes s
  else if trapvect8 = 0x25#8 then .next (serviceHalt s)
  else .next s

end Sys2Proof.Machine
end

