-- ==== Sys2Proof/Machine/Unimplemented.lean ====
section
/-! DEFINITION. RTI and RES, which the core executes as no-ops (44_unimplemented R220, R221). -/

namespace Sys2Proof.Machine

/-- RTI (R220): only the fetch increment of the PC has happened. -/
def execRti (s : State) : Host.Outcome State Fault Refusal := .next s

/-- RES (R221): only the fetch increment of the PC has happened. -/
def execRes (s : State) : Host.Outcome State Fault Refusal := .next s

end Sys2Proof.Machine
end

