-- ==== Sys2Proof/Machine/Dispatch.lean ====
section
/-! DEFINITION. `Execute(instr)` (30_encoding R103): one arm per instruction. The state it takes is the one after fetch,
with the PC incremented (R102). -/

namespace Sys2Proof.Machine

def exec (i : Instr) (s : State) : Host.Outcome State Fault Refusal :=
  match i with
  | .br nzp off9 => Sys2Proof.Machine.execBr nzp off9 s
  | .add dr sr1 sr2 => Sys2Proof.Machine.execAdd dr sr1 sr2 s
  | .addi dr sr1 imm5 => Sys2Proof.Machine.execAddi dr sr1 imm5 s
  | .ld dr off9 => Sys2Proof.Machine.execLd dr off9 s
  | .st sr off9 => Sys2Proof.Machine.execSt sr off9 s
  | .jsr off11 => Sys2Proof.Machine.execJsr off11 s
  | .jsrr base => Sys2Proof.Machine.execJsrr base s
  | .and dr sr1 sr2 => Sys2Proof.Machine.execAnd dr sr1 sr2 s
  | .andi dr sr1 imm5 => Sys2Proof.Machine.execAndi dr sr1 imm5 s
  | .ldr dr base off6 => Sys2Proof.Machine.execLdr dr base off6 s
  | .str sr base off6 => Sys2Proof.Machine.execStr sr base off6 s
  | .rti => Sys2Proof.Machine.execRti s
  | .not dr sr => Sys2Proof.Machine.execNot dr sr s
  | .ldi dr off9 => Sys2Proof.Machine.execLdi dr off9 s
  | .sti sr off9 => Sys2Proof.Machine.execSti sr off9 s
  | .jmp base => Sys2Proof.Machine.execJmp base s
  | .ret => Sys2Proof.Machine.execRet s
  | .res => Sys2Proof.Machine.execRes s
  | .lea dr off9 => Sys2Proof.Machine.execLea dr off9 s
  | .trapGetc => Sys2Proof.Machine.execTrapGetc s
  | .trapOut => Sys2Proof.Machine.execTrapOut s
  | .trapPuts => Sys2Proof.Machine.execTrapPuts s
  | .trapIn => Sys2Proof.Machine.execTrapIn s
  | .trapPutsp => Sys2Proof.Machine.execTrapPutsp s
  | .trapHalt => Sys2Proof.Machine.execTrapHalt s
  | .trap trapvect8 => Sys2Proof.Machine.execTrap trapvect8 s

end Sys2Proof.Machine
end

