-- ==== Sys2Proof/Machine/Loop.lean ====
section
/-! DEFINITION. The fetch, decode and execute loop (30_encoding R100 to R103) and whose step comes next
(60_exceptions R260). -/

namespace Sys2Proof.Machine

/-- Fetch (R101), PC increment (R102) and dispatch (R103). -/
def fetchExecute (s : State) : Host.Outcome State Fault Refusal :=
  let r := memRead s s.pc
  exec (decode r.1) (r.2.setPc (r.2.pc + 1#16))

/-- One loop iteration, phase Boundary (R100): the running test, then keyboard servicing, then fetch (D3). -/
def iterate (s : State) : Host.Outcome State Fault Refusal :=
  if s.running then fetchExecute (keyboardService s) else .next { s with phase := .exited }

/-- The core's step in each phase. Exited is final: nothing changes (60_exceptions R255; log entry 7). -/
def coreStep (s : State) : Host.Outcome State Fault Refusal :=
  match s.phase with
  | .boundary => iterate s
  | .waitKey r => .next (waitStep r s)
  | .exited => .next s

/-- Does the core have a step? (R260's column "enabled when".) -/
def hasCoreStep (s : State) : Bool :=
  match s.phase with
  | .boundary => true
  | .waitKey _ => s.keyBuf.isSome || mustCancel s
  | .exited => false

/-- Whose turn it is: the head of the schedule. With none scheduled the core moves, and the keyboard agent where the
core has no step (DESIGN CHOICE, log entry 6). -/
def turnOf (s : State) : Agent :=
  match s.schedule with
  | a :: _ => a
  | [] => if hasCoreStep s then .core else .keyboard

/-- The schedule without that turn. -/
def takeTurn (s : State) : State := { s with schedule := s.schedule.tail }

/-- The step of one agent (R260). -/
def agentStep (a : Agent) (s : State) : Host.Outcome State Fault Refusal :=
  match a with
  | .core => coreStep s
  | .cancel => .next (cancelWait s)
  | .keyboard => .next (keyAgentStep s)
  | .stop => .next (stopRequest s)

/-- One atomic step of the machine. -/
def machineStep (s : State) : Host.Outcome State Fault Refusal := agentStep (turnOf s) (takeTurn s)

/-- `s` with the 16-bit word w where the next step fetches. A fetch needs phase Boundary, running, the core's turn, and,
at a device cell, no byte that keyboard servicing would stage over the word (log entry 15). -/
def placeFetchWord (s : State) (w : Word) : State :=
  { s with
    mem := s.mem.write s.pc w
    phase := .boundary
    running := true
    schedule := []
    keyBuf := if s.pc = kbsrAddr ∨ s.pc = kbdrAddr then none else s.keyBuf }

end Sys2Proof.Machine
end

