-- ==== Sys2Proof/Machine/Boot.lean ====
section
/-! DEFINITION. Construction, the image loader and start (70_reset_and_hazards R270 to R277). -/

namespace Sys2Proof.Machine

/-- Why an image does not load (R277). -/
inductive LoadError where
  /-- Fewer than 4 bytes: "file too short"; the VM does not start. Safe. -/
  | fileTooShort
  deriving DecidableEq, Repr

/-- MemoryMappedRegistersStart (00_scope R8). -/
def loaderCap : Word := 0xFE00#16

/-- The copy loop of R276: big-endian words from address a up, below the cap; a final odd byte is ignored (D12). -/
def loadWords : Word → List Byte → Memory → Memory
  | a, hi :: lo :: rest, m =>
    if a < loaderCap then loadWords (a + 1#16) rest (m.write a (bigEndian hi lo)) else m
  | _, [_], m => m
  | _, [], m => m

/-- `Load(buf)` (R276) into memory m. -/
def loadImage (buf : List Byte) (m : Memory) : Except LoadError Memory :=
  match buf with
  | hi :: lo :: b0 :: b1 :: rest => .ok (loadWords (bigEndian hi lo) (b0 :: b1 :: rest) m)
  | _ => .error .fileTooShort

/-- What the host gives a run besides the image (60_exceptions R261, 00_scope R9). -/
structure HostInputs where
  params : Config.Params
  gprReset : Config.GprReset
  /-- The arbitrary words of R0 to R7 where P_GPR_RESET is unknown (D15). -/
  gprDraw : Vector Word 8
  kbdIn : List Byte
  sinkAnswers : List SinkAnswer
  schedule : List Agent
  deriving DecidableEq, Repr

/-- `start(image)` on a VM just constructed (R271): load, then set the registers, running and the phase. PC is 0x3000
whatever the origin (R273). -/
def State.start (image : List Byte) (h : HostInputs) : Except LoadError State :=
  match loadImage image [] with
  | .error e => .error e
  | .ok m =>
    .ok { State.reset with
      regs := (match h.gprReset with | .zero => Vector.replicate 8 0x0000#16 | .unknown => h.gprDraw)
      mem := m
      params := h.params
      kbdIn := h.kbdIn
      sinkAnswers := h.sinkAnswers
      schedule := h.schedule }

end Sys2Proof.Machine
end

