-- ==== Sys2Proof/Safety.lean ====
section
/-! DEFINITION. The terms claims are stated in: the invariant of every reachable state (10_state R39), what a run is
observed by (60_exceptions R254), and what loads, sinks and strings do to a state. -/

namespace Sys2Proof.Machine

/-- What holds in every reachable state: 10_state R39, and how the control flags go together (10_state R33 to R35,
60_exceptions R253, R254; the clauses about `cause` and `stopRequested` rest on log entries 9 and 10). -/
structure State.Inv (s : State) : Prop where
  memCanonical : s.mem.wf = true
  ccOneHot : s.cc = 0b001#3 ∨ s.cc = 0b010#3 ∨ s.cc = 0b100#3
  kbsrLegal : s.memAt 0xFE00#16 = 0x0000#16 ∨ s.memAt 0xFE00#16 = 0x8000#16
  kbdrLegal : (s.memAt 0xFE02#16).extractLsb' 8 8 = 0x00#8
  exitedStopped : s.phase = .exited → s.running = false
  sinkErrorExited : s.sinkError = true → s.phase = .exited
  stopStopped : s.stopRequested = true → s.running = false
  causeKnown : s.cause = none ↔ s.running = true

/-- What a run is observed by once it has ended (60_exceptions R254). -/
structure Observed where
  regs : Vector Word 8
  pc : Word
  cc : BitVec 3
  mem : Memory
  out : List Byte
  sinkError : Bool
  cause : Option StopCause
  deriving DecidableEq, Repr

def State.observed (s : State) : Observed :=
  { regs := s.regs, pc := s.pc, cc := s.cc, mem := s.mem, out := s.out, sinkError := s.sinkError, cause := s.cause }

/-- The flag rule of 41_operate R140, as a relation between a condition code and a value. -/
def FlagsOf (c : BitVec 3) (v : Word) : Prop :=
  (v = 0x0000#16 → c = 0b010#3) ∧
  (v ≠ 0x0000#16 → v.getLsbD 15 = true → c = 0b100#3) ∧
  (v ≠ 0x0000#16 → v.getLsbD 15 = false → c = 0b001#3)

/-- From s to t, R[dr] became v and every other general register kept its value. -/
def WritesReg (dr : Reg) (v : Word) (s t : State) : Prop :=
  t.reg dr = v ∧ ∀ r : Reg, r ≠ dr → t.reg r = s.reg r

/-- What address b holds after a MemRead of address a in state s (20_memory R51): READY is cleared if a is KBDR. -/
def afterRead (s : State) (a b : Word) : Word :=
  if a = 0xFE02#16 ∧ b = 0xFE00#16 then s.memAt 0xFE00#16 &&& 0x7FFF#16 else s.memAt b

/-! ## The sink (60_exceptions R253) -/

/-- The sink takes the next n bytes. -/
def SinkAccepts (n : Nat) (s : State) : Prop :=
  s.params.sinkMayFail = false ∨ ∀ k < n, s.sinkAnswers[k]? ≠ some .error

/-- The sink takes n bytes and fails on the one after them. -/
def SinkFailsAt (n : Nat) (s : State) : Prop :=
  s.params.sinkMayFail = true ∧ (∀ k < n, s.sinkAnswers[k]? ≠ some .error) ∧ s.sinkAnswers[n]? = some .error

/-- s after the sink took the bytes bs. -/
def accepted (s : State) (bs : List Byte) : State :=
  { s with out := s.out ++ bs, sinkAnswers := s.sinkAnswers.drop bs.length }

/-- s after the sink took the bytes bs and failed on the next: the failed byte is not in the stream, sink_error is set,
running cleared and the core exited; the cause is the sink failure if the run was still running. -/
def failedAfter (s : State) (bs : List Byte) : State :=
  { s with
    out := s.out ++ bs
    sinkAnswers := s.sinkAnswers.drop (bs.length + 1)
    sinkError := true
    running := false
    phase := .exited
    cause := if s.running then some .sinkFailure else s.cause }

/-! ## The strings of PUTS and PUTSP (43_trap R194, R197, R200) -/

/-- Is KBDR among the first k addresses from a on? -/
def passesKbdr (a : Word) (k : Nat) : Prop := ∃ j < k, a + BitVec.ofNat 16 j = 0xFE02#16

/-- The k-th word a string routine reads from address a on, in a state s: Mem there, but KBSR without READY once KBDR has
been read on the way. -/
def IsStringWord (s : State) (a : Word) (k : Nat) (w : Word) : Prop :=
  (a + BitVec.ofNat 16 k = 0xFE00#16 → passesKbdr a k → w = s.memAt 0xFE00#16 &&& 0x7FFF#16) ∧
  (¬ (a + BitVec.ofNat 16 k = 0xFE00#16 ∧ passesKbdr a k) → w = s.memAt (a + BitVec.ofNat 16 k))

/-- The words ws, none of them zero, are the first ws.length words a string routine reads from R0 on. -/
def StringReads (s : State) (ws : List Word) : Prop :=
  ∀ k (h : k < ws.length), IsStringWord s (s.reg 0#3) k ws[k] ∧ ws[k] ≠ 0x0000#16

/-- From s to t memory changed only in KBSR, which lost READY if KBDR is among the first k addresses from R0 on. -/
def StringMemory (s t : State) (k : Nat) : Prop :=
  (passesKbdr (s.reg 0#3) k → t.memAt 0xFE00#16 = s.memAt 0xFE00#16 &&& 0x7FFF#16) ∧
  (¬ passesKbdr (s.reg 0#3) k → t.memAt 0xFE00#16 = s.memAt 0xFE00#16) ∧
  ∀ b, b ≠ 0xFE00#16 → t.memAt b = s.memAt b

end Sys2Proof.Machine
end

