-- ==== Sys2Proof/Certificates/Slice0/Obligations.lean ====
section
/-! DEFINITION. The statements for the provers. In a statement about `exec`, `s.pc` is the incremented PC (30_encoding
R102). A frame is written `t = { s with f := t.f, … }`: every field of the state but those named is unchanged; where
`mem` is named, a clause says what every address reads as. -/

open Sys2Proof Sys2Proof.Machine

/-! ## Encoding -/

/-- Decode and encode agree: no operand bit is dropped (30_encoding R81 to R88). -/
def Obligations.DecodeEncodeRoundTrip : Prop :=
  ∀ i : Instr, i.wellFormed = true → decode (encode i) = i

/-- The other direction: a word is its instruction's encoding but for the ignored bits (30_encoding R85, R89; the 0 in
them is log entry 14). -/
def Obligations.EncodeDecodeClearsIgnored : Prop :=
  ∀ w : Word, encode (decode w) = w &&& ~~~ (ignoredBits w)

/-- 30_encoding R89: the bits listed there select nothing and change no result. -/
def Obligations.IgnoredBitsSelectNothing : Prop :=
  (∀ w x : Word, w.extractLsb' 12 4 = 0b0001#4 ∨ w.extractLsb' 12 4 = 0b0101#4 → w.getLsbD 5 = false →
    decode (w ^^^ (x &&& 0x0018#16)) = decode w) ∧
  (∀ w x : Word, w.extractLsb' 12 4 = 0b0100#4 → w.getLsbD 11 = false →
    decode (w ^^^ (x &&& 0x063F#16)) = decode w) ∧
  (∀ w x : Word, w.extractLsb' 12 4 = 0b1001#4 → decode (w ^^^ (x &&& 0x003F#16)) = decode w) ∧
  (∀ w x : Word, w.extractLsb' 12 4 = 0b1100#4 → decode (w ^^^ (x &&& 0x0E3F#16)) = decode w) ∧
  (∀ w x : Word, w.extractLsb' 12 4 = 0b1111#4 → decode (w ^^^ (x &&& 0x0F00#16)) = decode w) ∧
  (∀ w x : Word, w.extractLsb' 12 4 = 0b1000#4 ∨ w.extractLsb' 12 4 = 0b1101#4 →
    decode (w ^^^ (x &&& 0x0FFF#16)) = decode w) ∧
  decode 0xFF25#16 = decode 0xF025#16

/-- Every word decodes to a well-formed instruction, and to the only one that encodes to it (30_encoding R90, R92). Which
terms are well-formed (log entry 13) and the encoder's 0 in ignored bits (log entry 14) are the model's choices. -/
def Obligations.EveryWordHasOneReading : Prop :=
  ∀ w : Word, (decode w).wellFormed = true ∧
    ∀ i : Instr, i.wellFormed = true → encode i = w &&& ~~~ (ignoredBits w) → i = decode w

/-- Words written out from the formats of 30_encoding R85. -/
def Obligations.SpecWordsDecode : Prop :=
  decode 0b0000_001_111111110#16 = .br 0b001#3 0b111111110#9 ∧
  decode 0b0001_000_001_0_00_010#16 = .add 0#3 1#3 2#3 ∧
  decode 0b0001_000_000_1_00101#16 = .addi 0#3 0#3 5#5 ∧
  decode 0b0010_000_000000011#16 = .ld 0#3 3#9 ∧
  decode 0b0111_010_001_000000#16 = .str 2#3 1#3 0#6 ∧
  decode 0b0100_1_00000000010#16 = .jsr 2#11 ∧
  decode 0b0100_0_00_010_000000#16 = .jsrr 2#3 ∧
  decode 0b1001_000_001_111111#16 = .not 0#3 1#3 ∧
  decode 0b1100_000_111_000000#16 = .ret ∧
  decode 0b1000_000000000000#16 = .rti ∧
  decode 0b1111_0000_00100101#16 = .trapHalt ∧
  decode 0b1111_0000_00100110#16 = .trap 0x26#8

/-- 00_scope R12: the formula of `sext_N`, that the field extension the meanings use is it, and `zext_8`. -/
def Obligations.ExtensionFormulas : Prop :=
  (∀ (n : Nat) (v : Word), 0 < n → n ≤ 16 →
    (sext n v).toNat =
      if v.getLsbD (n - 1) then (v.toNat % 2 ^ n + 0x10000 - 2 ^ n) % 0x10000 else v.toNat % 2 ^ n) ∧
  (∀ (n : Nat) (f : BitVec n), n ≤ 16 → sextField f = sext n (f.setWidth 16)) ∧
  (∀ b : Byte, (zext8 b).toNat = b.toNat)

/-! ## Memory and flags -/

/-- 20_memory R51: the value MemRead returns, its side effect, and nothing else. -/
def Obligations.MemReadClearsReadyAtKbdr : Prop :=
  ∀ (s : State) (a : Word),
    (memRead s a).1 = s.memAt a ∧
    (a = 0xFE02#16 → (memRead s a).2.memAt 0xFE00#16 = s.memAt 0xFE00#16 &&& 0x7FFF#16 ∧
      ∀ b, b ≠ 0xFE00#16 → (memRead s a).2.memAt b = s.memAt b) ∧
    (a ≠ 0xFE02#16 → (memRead s a).2 = s) ∧
    (memRead s a).2 = { s with mem := (memRead s a).2.mem }

/-- 20_memory R52: a store to a device cell is dropped, any other replaces one word. -/
def Obligations.MemWriteStoresOrDrops : Prop :=
  ∀ (s : State) (a v : Word),
    (a = 0xFE00#16 ∨ a = 0xFE02#16 → memWrite s a v = s) ∧
    (a ≠ 0xFE00#16 → a ≠ 0xFE02#16 →
      (memWrite s a v).memAt a = v ∧ (∀ b, b ≠ a → (memWrite s a v).memAt b = s.memAt b) ∧
      memWrite s a v = { s with mem := (memWrite s a v).mem })

/-- Equal memories are equal data: two canonical lists that read the same at every address are the same list. The list
and its canonical form are the model's choice (log entry 1); that an unlisted address reads 0 is 10_state R31. -/
def Obligations.CanonicalMemoryIsUnique : Prop :=
  ∀ m m' : Memory, m.wf = true → m'.wf = true → (∀ a, m.read a = m'.read a) → m = m'

/-- `SetCC(v)` of 41_operate R140, for any v. That an instruction applies it to the register it has just written is in
the instructions' statements. -/
def Obligations.SetCCFollowsSign : Prop :=
  ∀ (s : State) (v : Word), FlagsOf (s.setCC v).cc v ∧ s.setCC v = { s with cc := (s.setCC v).cc }

/-! ## ADD, AND, NOT -/

/-- 41_operate R142: the encoding and the effect of ADD, register form. -/
def Obligations.AddRegisterForm : Prop :=
  (∀ w : Word, w.extractLsb' 12 4 = 0b0001#4 → w.getLsbD 5 = false →
    decode w = .add (w.extractLsb' 9 3) (w.extractLsb' 6 3) (w.extractLsb' 0 3)) ∧
  ∀ (dr sr1 sr2 : Reg) (s : State), ∃ t, exec (.add dr sr1 sr2) s = .next t ∧
    WritesReg dr (s.reg sr1 + s.reg sr2) s t ∧ FlagsOf t.cc (t.reg dr) ∧ t = { s with regs := t.regs, cc := t.cc }

/-- 41_operate R143: the encoding and the effect of ADD, immediate form. -/
def Obligations.AddImmediateForm : Prop :=
  (∀ w : Word, w.extractLsb' 12 4 = 0b0001#4 → w.getLsbD 5 = true →
    decode w = .addi (w.extractLsb' 9 3) (w.extractLsb' 6 3) (w.extractLsb' 0 5)) ∧
  ∀ (dr sr1 : Reg) (imm5 : BitVec 5) (s : State), ∃ t, exec (.addi dr sr1 imm5) s = .next t ∧
    WritesReg dr (s.reg sr1 + imm5.signExtend 16) s t ∧ FlagsOf t.cc (t.reg dr) ∧
    t = { s with regs := t.regs, cc := t.cc }

/-- 41_operate R144: the encoding and the effect of AND, register form. -/
def Obligations.AndRegisterForm : Prop :=
  (∀ w : Word, w.extractLsb' 12 4 = 0b0101#4 → w.getLsbD 5 = false →
    decode w = .and (w.extractLsb' 9 3) (w.extractLsb' 6 3) (w.extractLsb' 0 3)) ∧
  ∀ (dr sr1 sr2 : Reg) (s : State), ∃ t, exec (.and dr sr1 sr2) s = .next t ∧
    WritesReg dr (s.reg sr1 &&& s.reg sr2) s t ∧ FlagsOf t.cc (t.reg dr) ∧ t = { s with regs := t.regs, cc := t.cc }

/-- 41_operate R145: the encoding and the effect of AND, immediate form. -/
def Obligations.AndImmediateForm : Prop :=
  (∀ w : Word, w.extractLsb' 12 4 = 0b0101#4 → w.getLsbD 5 = true →
    decode w = .andi (w.extractLsb' 9 3) (w.extractLsb' 6 3) (w.extractLsb' 0 5)) ∧
  ∀ (dr sr1 : Reg) (imm5 : BitVec 5) (s : State), ∃ t, exec (.andi dr sr1 imm5) s = .next t ∧
    WritesReg dr (s.reg sr1 &&& imm5.signExtend 16) s t ∧ FlagsOf t.cc (t.reg dr) ∧
    t = { s with regs := t.regs, cc := t.cc }

/-- 41_operate R146: the encoding and the effect of NOT, and that two NOTs restore the value. -/
def Obligations.NotComplements : Prop :=
  (∀ w : Word, w.extractLsb' 12 4 = 0b1001#4 → decode w = .not (w.extractLsb' 9 3) (w.extractLsb' 6 3)) ∧
  (∀ (dr sr : Reg) (s : State), ∃ t, exec (.not dr sr) s = .next t ∧
    WritesReg dr (~~~ (s.reg sr)) s t ∧ FlagsOf t.cc (t.reg dr) ∧ t = { s with regs := t.regs, cc := t.cc }) ∧
  ∀ (r : Reg) (s : State), ∃ t u, exec (.not r r) s = .next t ∧ exec (.not r r) t = .next u ∧ u.reg r = s.reg r

/-! ## Loads, stores, LEA -/

/-- 42_data_movement R161: the encoding and the effect of LD, the KBDR side effect among it. -/
def Obligations.LdLoadsPcRelative : Prop :=
  (∀ w : Word, w.extractLsb' 12 4 = 0b0010#4 → decode w = .ld (w.extractLsb' 9 3) (w.extractLsb' 0 9)) ∧
  ∀ (dr : Reg) (off9 : BitVec 9) (s : State), ∃ t, exec (.ld dr off9) s = .next t ∧
    WritesReg dr (s.memAt (s.pc + off9.signExtend 16)) s t ∧ FlagsOf t.cc (t.reg dr) ∧
    (∀ b, t.memAt b = afterRead s (s.pc + off9.signExtend 16) b) ∧
    t = { s with regs := t.regs, cc := t.cc, mem := t.mem }

/-- 42_data_movement R162: the encoding and the effect of ST; a store to a device cell is dropped. -/
def Obligations.StStoresPcRelative : Prop :=
  (∀ w : Word, w.extractLsb' 12 4 = 0b0011#4 → decode w = .st (w.extractLsb' 9 3) (w.extractLsb' 0 9)) ∧
  ∀ (sr : Reg) (off9 : BitVec 9) (s : State), ∃ t, exec (.st sr off9) s = .next t ∧
    (s.pc + off9.signExtend 16 = 0xFE00#16 ∨ s.pc + off9.signExtend 16 = 0xFE02#16 → t = s) ∧
    (s.pc + off9.signExtend 16 ≠ 0xFE00#16 → s.pc + off9.signExtend 16 ≠ 0xFE02#16 →
      t.memAt (s.pc + off9.signExtend 16) = s.reg sr) ∧
    (∀ b, b ≠ s.pc + off9.signExtend 16 → t.memAt b = s.memAt b) ∧
    t = { s with mem := t.mem }

/-- 42_data_movement R163: the encoding and the effect of LDR; the base is read before DR is written. -/
def Obligations.LdrLoadsBaseOffset : Prop :=
  (∀ w : Word, w.extractLsb' 12 4 = 0b0110#4 →
    decode w = .ldr (w.extractLsb' 9 3) (w.extractLsb' 6 3) (w.extractLsb' 0 6)) ∧
  ∀ (dr base : Reg) (off6 : BitVec 6) (s : State), ∃ t, exec (.ldr dr base off6) s = .next t ∧
    WritesReg dr (s.memAt (s.reg base + off6.signExtend 16)) s t ∧ FlagsOf t.cc (t.reg dr) ∧
    (∀ b, t.memAt b = afterRead s (s.reg base + off6.signExtend 16) b) ∧
    t = { s with regs := t.regs, cc := t.cc, mem := t.mem }

/-- 42_data_movement R164: the encoding and the effect of STR; a store to a device cell is dropped. -/
def Obligations.StrStoresBaseOffset : Prop :=
  (∀ w : Word, w.extractLsb' 12 4 = 0b0111#4 →
    decode w = .str (w.extractLsb' 9 3) (w.extractLsb' 6 3) (w.extractLsb' 0 6)) ∧
  ∀ (sr base : Reg) (off6 : BitVec 6) (s : State), ∃ t, exec (.str sr base off6) s = .next t ∧
    (s.reg base + off6.signExtend 16 = 0xFE00#16 ∨ s.reg base + off6.signExtend 16 = 0xFE02#16 → t = s) ∧
    (s.reg base + off6.signExtend 16 ≠ 0xFE00#16 → s.reg base + off6.signExtend 16 ≠ 0xFE02#16 →
      t.memAt (s.reg base + off6.signExtend 16) = s.reg sr) ∧
    (∀ b, b ≠ s.reg base + off6.signExtend 16 → t.memAt b = s.memAt b) ∧
    t = { s with mem := t.mem }

/-- 42_data_movement R165: the encoding and the effect of LDI: the pointer p is read first, each read has the KBDR side
effect, and the second read sees the first one's. -/
def Obligations.LdiLoadsIndirect : Prop :=
  (∀ w : Word, w.extractLsb' 12 4 = 0b1010#4 → decode w = .ldi (w.extractLsb' 9 3) (w.extractLsb' 0 9)) ∧
  ∀ (dr : Reg) (off9 : BitVec 9) (s : State) (at_ p : Word),
    at_ = s.pc + off9.signExtend 16 → p = s.memAt at_ →
    ∃ t, exec (.ldi dr off9) s = .next t ∧
      WritesReg dr (afterRead s at_ p) s t ∧ FlagsOf t.cc (t.reg dr) ∧
      (at_ = 0xFE02#16 ∨ p = 0xFE02#16 → t.memAt 0xFE00#16 = s.memAt 0xFE00#16 &&& 0x7FFF#16) ∧
      (at_ ≠ 0xFE02#16 → p ≠ 0xFE02#16 → t.memAt 0xFE00#16 = s.memAt 0xFE00#16) ∧
      (∀ b, b ≠ 0xFE00#16 → t.memAt b = s.memAt b) ∧
      t = { s with regs := t.regs, cc := t.cc, mem := t.mem }

/-- 42_data_movement R166: the encoding and the effect of STI: the pointer read has the KBDR side effect, the store goes
to the pointer and a device cell drops it. -/
def Obligations.StiStoresIndirect : Prop :=
  (∀ w : Word, w.extractLsb' 12 4 = 0b1011#4 → decode w = .sti (w.extractLsb' 9 3) (w.extractLsb' 0 9)) ∧
  ∀ (sr : Reg) (off9 : BitVec 9) (s : State) (at_ p : Word),
    at_ = s.pc + off9.signExtend 16 → p = s.memAt at_ →
    ∃ t, exec (.sti sr off9) s = .next t ∧
      (p ≠ 0xFE00#16 → p ≠ 0xFE02#16 → t.memAt p = s.reg sr) ∧
      (p = 0xFE00#16 ∨ p = 0xFE02#16 → t.memAt p = afterRead s at_ p) ∧
      (∀ b, b ≠ p → t.memAt b = afterRead s at_ b) ∧
      t = { s with mem := t.mem }

/-- 42_data_movement R167: the encoding and the effect of LEA: CC is set, memory is not read (no side effect at KBDR). -/
def Obligations.LeaComputesAddress : Prop :=
  (∀ w : Word, w.extractLsb' 12 4 = 0b1110#4 → decode w = .lea (w.extractLsb' 9 3) (w.extractLsb' 0 9)) ∧
  ∀ (dr : Reg) (off9 : BitVec 9) (s : State), ∃ t, exec (.lea dr off9) s = .next t ∧
    WritesReg dr (s.pc + off9.signExtend 16) s t ∧ FlagsOf t.cc (t.reg dr) ∧ t = { s with regs := t.regs, cc := t.cc }

/-! ## Control transfer -/

/-- 40_control R120: the encoding and the effect of BR; nzp = 000 never branches, and with CC one-hot nzp = 111 always
does. -/
def Obligations.BrBranchesOnMask : Prop :=
  (∀ w : Word, w.extractLsb' 12 4 = 0b0000#4 → decode w = .br (w.extractLsb' 9 3) (w.extractLsb' 0 9)) ∧
  (∀ (nzp : BitVec 3) (off9 : BitVec 9) (s : State), nzp &&& s.cc ≠ 0b000#3 →
    exec (.br nzp off9) s = .next { s with pc := s.pc + off9.signExtend 16 }) ∧
  (∀ (nzp : BitVec 3) (off9 : BitVec 9) (s : State), nzp &&& s.cc = 0b000#3 → exec (.br nzp off9) s = .next s) ∧
  (∀ (off9 : BitVec 9) (s : State), exec (.br 0b000#3 off9) s = .next s) ∧
  ∀ (off9 : BitVec 9) (s : State), s.cc = 0b001#3 ∨ s.cc = 0b010#3 ∨ s.cc = 0b100#3 →
    exec (.br 0b111#3 off9) s = .next { s with pc := s.pc + off9.signExtend 16 }

/-- 40_control R122: the encoding and the effect of JSR. -/
def Obligations.JsrLinksAndJumps : Prop :=
  (∀ w : Word, w.extractLsb' 12 4 = 0b0100#4 → w.getLsbD 11 = true → decode w = .jsr (w.extractLsb' 0 11)) ∧
  ∀ (off11 : BitVec 11) (s : State), ∃ t, exec (.jsr off11) s = .next t ∧
    WritesReg 7#3 s.pc s t ∧ t.pc = s.pc + off11.signExtend 16 ∧ t = { s with regs := t.regs, pc := t.pc }

/-- 40_control R124: the encoding and the effect of JSRR, with BR = 7 reading the new R7. -/
def Obligations.JsrrLinksThenJumps : Prop :=
  (∀ w : Word, w.extractLsb' 12 4 = 0b0100#4 → w.getLsbD 11 = false → decode w = .jsrr (w.extractLsb' 6 3)) ∧
  ∀ (base : Reg) (s : State), ∃ t, exec (.jsrr base) s = .next t ∧
    WritesReg 7#3 s.pc s t ∧ (base ≠ 7#3 → t.pc = s.reg base) ∧ (base = 7#3 → t.pc = s.pc) ∧
    t = { s with regs := t.regs, pc := t.pc }

/-- 40_control R126, R127: the words and the effect of JMP and RET. -/
def Obligations.JmpAndRetJump : Prop :=
  (∀ w : Word, w.extractLsb' 12 4 = 0b1100#4 → w.extractLsb' 6 3 ≠ 7#3 → decode w = .jmp (w.extractLsb' 6 3)) ∧
  (∀ w : Word, w.extractLsb' 12 4 = 0b1100#4 → w.extractLsb' 6 3 = 7#3 → decode w = .ret) ∧
  (∀ (base : Reg) (s : State), exec (.jmp base) s = .next { s with pc := s.reg base }) ∧
  ∀ s : State, exec .ret s = .next { s with pc := s.reg 7#3 } ∧ exec .ret s = exec (.jmp 7#3) s

/-! ## No-ops -/

/-- 44_unimplemented R220, R221: RTI and RES change nothing after the fetch. -/
def Obligations.RtiAndResDoNothing : Prop :=
  (∀ w : Word, w.extractLsb' 12 4 = 0b1000#4 → decode w = .rti) ∧
  (∀ w : Word, w.extractLsb' 12 4 = 0b1101#4 → decode w = .res) ∧
  ∀ s : State, exec .rti s = .next s ∧ exec .res s = .next s

/-- 43_trap R199: a vector outside 0x20 to 0x25 changes nothing after the fetch. -/
def Obligations.UndefinedVectorDoesNothing : Prop :=
  (∀ w : Word, w.extractLsb' 12 4 = 0b1111#4 →
    w.extractLsb' 0 8 < 0x20#8 ∨ 0x25#8 < w.extractLsb' 0 8 → decode w = .trap (w.extractLsb' 0 8)) ∧
  ∀ (v : BitVec 8) (s : State), v < 0x20#8 ∨ 0x25#8 < v → exec (.trap v) s = .next s

/-! ## TRAP -/

/-- 43_trap R190: dispatch on instr[7:0], by the decoder and by the dispatcher, and what no TRAP does: it writes no
general register (R7 among them), neither CC nor the PC. GETC and IN write R0 and CC in their second phase. -/
def Obligations.TrapDispatchesOnVector : Prop :=
  (∀ w : Word, w.extractLsb' 12 4 = 0b1111#4 →
    (w.extractLsb' 0 8 = 0x20#8 → decode w = .trapGetc) ∧ (w.extractLsb' 0 8 = 0x21#8 → decode w = .trapOut) ∧
    (w.extractLsb' 0 8 = 0x22#8 → decode w = .trapPuts) ∧ (w.extractLsb' 0 8 = 0x23#8 → decode w = .trapIn) ∧
    (w.extractLsb' 0 8 = 0x24#8 → decode w = .trapPutsp) ∧ (w.extractLsb' 0 8 = 0x25#8 → decode w = .trapHalt)) ∧
  (∀ s : State, exec (.trap 0x20#8) s = exec .trapGetc s ∧ exec (.trap 0x21#8) s = exec .trapOut s ∧
    exec (.trap 0x22#8) s = exec .trapPuts s ∧ exec (.trap 0x23#8) s = exec .trapIn s ∧
    exec (.trap 0x24#8) s = exec .trapPutsp s ∧ exec (.trap 0x25#8) s = exec .trapHalt s) ∧
  ∀ (w : Word) (s t : State), w.extractLsb' 12 4 = 0b1111#4 → exec (decode w) s = .next t →
    t.regs = s.regs ∧ t.cc = s.cc ∧ t.pc = s.pc

/-- 60_exceptions R253, 43_trap R201: a row of Emits appends every byte, or stops at the first failing write with
sink_error set, running cleared and the core exited; one of the two holds in every state. The cause is log entry 9. -/
def Obligations.EmitsStopAtFirstFailure : Prop :=
  ∀ (bs : List Byte) (s : State),
    (SinkAccepts bs.length s → emitAll bs s = .sent (accepted s bs)) ∧
    (∀ n < bs.length, SinkFailsAt n s → emitAll bs s = .failed (failedAfter s (bs.take n))) ∧
    (SinkAccepts bs.length s ∨ ∃ n < bs.length, SinkFailsAt n s)

/-- 43_trap R191, R192: GETC waits and writes nothing else; in the wait the core takes a byte into R0, or holds. The
second part is for a wait that P_STOP_CANCELS_WAIT does not cancel. -/
def Obligations.GetcWaitsThenDelivers : Prop :=
  (∀ s : State, exec .trapGetc s = .next { s with phase := .waitKey .getc }) ∧
  ∀ s : State, turnOf s = .core → s.phase = .waitKey .getc →
    s.running = true ∨ s.params.stopCancelsWait ≠ some true →
    (s.keyBuf = none → step s = .next (takeTurn s)) ∧
    ∀ b, s.keyBuf = some b → ∃ t, step s = .next t ∧
      WritesReg 0#3 (b.setWidth 16) s t ∧ FlagsOf t.cc (t.reg 0#3) ∧ t.keyBuf = none ∧ t.phase = .boundary ∧
      t = { takeTurn s with regs := t.regs, cc := t.cc, keyBuf := t.keyBuf, phase := t.phase }

/-- 43_trap R193: OUT emits bits 7:0 of R0, or fails. -/
def Obligations.OutEmitsLowByte : Prop :=
  ∀ s : State,
    (SinkAccepts 1 s → exec .trapOut s = .next (accepted s [(s.reg 0#3).extractLsb' 0 8])) ∧
    (SinkFailsAt 0 s → exec .trapOut s = .next (failedAfter s []))

/-- 43_trap R194, R200, R201: PUTS emits the low byte of each word before the first zero word, or stops at the first
failing write; it changes memory in KBSR.READY only, if it reads KBDR. -/
def Obligations.PutsEmitsLowBytes : Prop :=
  (∀ (s : State) (ws : List Word), StringReads s ws → IsStringWord s (s.reg 0#3) ws.length 0x0000#16 →
    SinkAccepts ws.length s → ∃ t, exec .trapPuts s = .next t ∧
      StringMemory s t (ws.length + 1) ∧
      t = { accepted s (ws.map (fun w => w.extractLsb' 0 8)) with mem := t.mem }) ∧
  ∀ (s : State) (ws : List Word) (w : Word), StringReads s (ws ++ [w]) → SinkFailsAt ws.length s →
    ∃ t, exec .trapPuts s = .next t ∧ StringMemory s t (ws.length + 1) ∧
      t = { failedAfter s (ws.map (fun w => w.extractLsb' 0 8)) with mem := t.mem }

/-- 43_trap R197, R200, R201: PUTSP emits the low byte of each word before the first zero word, and after it the high
byte unless that is zero, or stops at the first failing write. -/
def Obligations.PutspEmitsPackedBytes : Prop :=
  ∀ packed : Word → List Byte,
    (∀ w, packed w = if w.extractLsb' 8 8 = 0x00#8 then [w.extractLsb' 0 8]
      else [w.extractLsb' 0 8, w.extractLsb' 8 8]) →
    (∀ (s : State) (ws : List Word), StringReads s ws → IsStringWord s (s.reg 0#3) ws.length 0x0000#16 →
      SinkAccepts (ws.flatMap packed).length s → ∃ t, exec .trapPutsp s = .next t ∧
        StringMemory s t (ws.length + 1) ∧ t = { accepted s (ws.flatMap packed) with mem := t.mem }) ∧
    ∀ (s : State) (ws : List Word) (w : Word) (m : Nat), StringReads s (ws ++ [w]) → m < (packed w).length →
      SinkFailsAt ((ws.flatMap packed).length + m) s → ∃ t, exec .trapPutsp s = .next t ∧
        StringMemory s t (ws.length + 1) ∧
        t = { failedAfter s (ws.flatMap packed ++ (packed w).take m) with mem := t.mem }

/-- 43_trap R200: a string routine hangs exactly where no zero word can be reached and no write fails; the model shows
the hang as a fault (log entry 8). -/
def Obligations.StringHangsOnlyWithoutZero : Prop :=
  ∀ s : State,
    (exec .trapPuts s = .fault .serviceNeverEnds ↔
      (∀ k, ¬ IsStringWord s (s.reg 0#3) k 0x0000#16) ∧ ∀ n, ¬ SinkFailsAt n s) ∧
    (exec .trapPutsp s = .fault .serviceNeverEnds ↔
      (∀ k, ¬ IsStringWord s (s.reg 0#3) k 0x0000#16) ∧ ∀ n, ¬ SinkFailsAt n s)

/-- In every state that meets the invariant PUTS and PUTSP complete: a string that goes round memory reads KBDR, so it
finds KBSR zero on its way. -/
def Obligations.StringRoutinesComplete : Prop :=
  ∀ s : State, s.Inv → (∃ t, exec .trapPuts s = .next t) ∧ ∃ t, exec .trapPutsp s = .next t

/-- 43_trap R195, R196: IN emits the prompt and waits; in the wait the core takes a byte, echoes it and then writes R0, or
holds; a failing echo leaves R0 and CC. -/
def Obligations.InPromptsThenEchoes : Prop :=
  (∀ (s : State) (prompt : List Byte),
    prompt = [0x45#8, 0x6E#8, 0x74#8, 0x65#8, 0x72#8, 0x20#8, 0x61#8, 0x20#8, 0x63#8, 0x68#8, 0x61#8, 0x72#8, 0x61#8,
      0x63#8, 0x74#8, 0x65#8, 0x72#8, 0x3A#8, 0x20#8] →
    (SinkAccepts 19 s → exec .trapIn s = .next { accepted s prompt with phase := .waitKey .input }) ∧
    ∀ n < 19, SinkFailsAt n s → exec .trapIn s = .next (failedAfter s (prompt.take n))) ∧
  ∀ s : State, turnOf s = .core → s.phase = .waitKey .input →
    s.running = true ∨ s.params.stopCancelsWait ≠ some true →
    (s.keyBuf = none → step s = .next (takeTurn s)) ∧
    (∀ b, s.keyBuf = some b → SinkAccepts 1 s → ∃ t, step s = .next t ∧
      WritesReg 0#3 (b.setWidth 16) s t ∧ FlagsOf t.cc (t.reg 0#3) ∧ t.keyBuf = none ∧ t.phase = .boundary ∧
      t = { accepted (takeTurn s) [b] with regs := t.regs, cc := t.cc, keyBuf := t.keyBuf, phase := t.phase }) ∧
    ∀ b, s.keyBuf = some b → SinkFailsAt 0 s → step s = .next { failedAfter (takeTurn s) [] with keyBuf := none }

/-- 43_trap R198: HALT emits its text and clears running, and nothing else; a failing write stops it there. The cause is
log entry 9. -/
def Obligations.HaltEmitsAndStops : Prop :=
  ∀ (s : State) (text : List Byte), text = [0x48#8, 0x41#8, 0x4C#8, 0x54#8, 0x0A#8] →
    (SinkAccepts 5 s → exec .trapHalt s = .next { accepted s text with
      running := false, cause := if s.running then some .halt else s.cause }) ∧
    ∀ n < 5, SinkFailsAt n s → exec .trapHalt s = .next (failedAfter s (text.take n))

/-! ## The loop and the agents -/

/-- 30_encoding R100 to R103: on the core's turn, at a boundary with running set, step services the keyboard, fetches at
the PC through MemRead, increments the PC and executes what the word decodes to. -/
def Obligations.StepRunsDecodedInstruction : Prop :=
  ∀ (s u : State), turnOf s = .core → s.phase = .boundary → s.running = true → u = keyboardService (takeTurn s) →
    step s = exec (decode (u.memAt u.pc)) { (memRead u u.pc).2 with pc := u.pc + 1#16 }

/-- Whichever 16-bit word is placed at the fetch, the very next step runs it. The state it runs in differs from s in the
PC, which is one on, and at most in memory and what the fetch needs (log entry 15). -/
def Obligations.PlacedWordRunsNext : Prop :=
  ∀ (s : State) (w : Nat), w < 2 ^ 16 → ∃ u, step (s.withFetchWord 16 w) = exec (decode (BitVec.ofNat 16 w)) u ∧
    decodeTableWord 16 w = some (decode (BitVec.ofNat 16 w)) ∧
    u.pc = s.pc + 1#16 ∧ u.regs = s.regs ∧ u.cc = s.cc ∧ u.out = s.out ∧ u.params = s.params ∧
    u.sinkAnswers = s.sinkAnswers ∧ u.phase = .boundary ∧ u.running = true

/-- 30_encoding R100, 60_exceptions R252: at a boundary with running clear the core exits; no byte is staged and nothing
is fetched. -/
def Obligations.StoppedCoreExitsAtBoundary : Prop :=
  ∀ s : State, turnOf s = .core → s.phase = .boundary → s.running = false →
    step s = .next { takeTurn s with phase := .exited }

/-- 60_exceptions R240: keyboard servicing, and that it runs once per iteration, before fetch. -/
def Obligations.KeyboardServiceStagesByte : Prop :=
  (∀ s : State, turnOf s = .core → s.phase = .boundary → s.running = true →
    step s = fetchExecute (keyboardService (takeTurn s))) ∧
  (∀ (s : State) (b : Byte), s.keyBuf = some b → (s.memAt 0xFE00#16).getLsbD 15 = false →
    ∃ t, keyboardService s = t ∧ t.keyBuf = none ∧ t.memAt 0xFE00#16 = s.memAt 0xFE00#16 ||| 0x8000#16 ∧
      t.memAt 0xFE02#16 = b.setWidth 16 ∧ (∀ a, a ≠ 0xFE00#16 → a ≠ 0xFE02#16 → t.memAt a = s.memAt a) ∧
      t = { s with keyBuf := t.keyBuf, mem := t.mem }) ∧
  ∀ s : State, s.keyBuf = none ∨ (s.memAt 0xFE00#16).getLsbD 15 = true → keyboardService s = s

/-- 60_exceptions R242, R260: on its turn the keyboard agent moves the head of its input into an empty key buffer unless a
stop has been requested (log entry 10); otherwise it changes nothing (log entry 7). After a stop it still moves a byte for
a key wait that P_STOP_CANCELS_WAIT, false or unset, lets go on, which is the model's choice (log entry 18). -/
def Obligations.KeyboardAgentFillsBuffer : Prop :=
  ∀ s : State, turnOf s = .keyboard →
    (∀ b rest, s.keyBuf = none → s.kbdIn = b :: rest →
      s.stopRequested = false ∨ ((∃ r, s.phase = .waitKey r) ∧ s.params.stopCancelsWait ≠ some true) →
      step s = .next { takeTurn s with keyBuf := some b, kbdIn := rest }) ∧
    (s.keyBuf ≠ none ∨ s.kbdIn = [] ∨
      (s.stopRequested = true ∧ ((∀ r, s.phase ≠ .waitKey r) ∨ s.params.stopCancelsWait = some true)) →
      step s = .next (takeTurn s))

/-- 60_exceptions R250, R260: a stop clears running at any time before Exited and ends the keyboard agent; the core then
exits at the next boundary without executing another instruction. The cause and the bit are log entries 9 and 10; that a
stop's turn after Exited answers the same state is log entry 7. -/
def Obligations.StopRequestClearsRunning : Prop :=
  (∀ s : State, turnOf s = .stop → s.phase ≠ .exited →
    step s = .next { takeTurn s with
      running := false, stopRequested := true, cause := if s.running then some .stopRequest else s.cause }) ∧
  (∀ s : State, turnOf s = .stop → s.phase = .exited → step s = .next (takeTurn s)) ∧
  ∀ s t : State, turnOf s = .stop → s.phase = .boundary → step s = .next t → turnOf t = .core →
    step t = .next { takeTurn t with phase := .exited }

/-- 60_exceptions R251: with running clear, a key wait cancels (no byte taken, R0 and CC kept) where P_STOP_CANCELS_WAIT
is true or unset, and does not where it is false. That a true parameter leaves no choice is log entry 12; that a cancel
turn where it is false answers the same state is log entry 7. -/
def Obligations.StoppedWaitCancels : Prop :=
  ∀ (s : State) (r : WaitRoutine), s.phase = .waitKey r → s.running = false →
    (s.params.stopCancelsWait ≠ some false → turnOf s = .cancel →
      step s = .next { takeTurn s with phase := .exited }) ∧
    (s.params.stopCancelsWait = some true → turnOf s = .core →
      step s = .next { takeTurn s with phase := .exited }) ∧
    (s.params.stopCancelsWait = some false → turnOf s = .cancel → step s = .next (takeTurn s))

/-- 60_exceptions R251, D10, 95_test_vectors S3: a stopped key wait that P_STOP_CANCELS_WAIT, false or unset, lets go on
completes GETC or IN on the next byte, and the core exits at the next loop top with nothing more executed. That the byte
may arrive after the stop is log entry 18; the turns are log entries 5 and 6. -/
def Obligations.StoppedWaitCompletesOnNextByte : Prop :=
  ∀ (s : State) (r : WaitRoutine) (b : Byte) (rest : List Byte),
    s.phase = .waitKey r → s.running = false → s.params.stopCancelsWait ≠ some true →
    s.keyBuf = none → s.kbdIn = b :: rest →
    s.schedule = [] ∨ (∃ more, s.schedule = .keyboard :: .core :: .core :: more) → r = .getc ∨ SinkAccepts 1 s →
    ∃ t u, step s = .next t ∧ step t = .next u ∧
      WritesReg 0#3 (b.setWidth 16) s u ∧ FlagsOf u.cc (u.reg 0#3) ∧
      u = { accepted s (if r = .getc then [] else [b]) with
        regs := u.regs, cc := u.cc, kbdIn := rest, phase := .boundary, schedule := s.schedule.drop 2 } ∧
      step u = .next { u with phase := .exited, schedule := s.schedule.drop 3 }

/-- 60_exceptions R255, 10_state R39: once Exited, a step changes nothing but the key buffer (and the host's side of it),
and only fills an empty one. That an agent with no step answers the same state is log entry 7. -/
def Obligations.ExitedIsFinal : Prop :=
  ∀ s : State, s.phase = .exited → ∃ t, step s = .next t ∧
    t = { s with keyBuf := t.keyBuf, kbdIn := t.kbdIn, schedule := s.schedule.tail } ∧
    (s.keyBuf ≠ none → t.keyBuf = s.keyBuf ∧ t.kbdIn = s.kbdIn) ∧ t.observed = s.observed

/-! ## Invariants and whole-machine rules -/

/-- Every step keeps the invariant: 10_state R39, the canonical form of memory, and how the control flags go together. -/
def Obligations.StepKeepsInvariant : Prop :=
  ∀ s t : State, s.Inv → step s = .next t → t.Inv

/-- The invariant holds at reset, and after every start that loads its image. -/
def Obligations.ResetMeetsInvariant : Prop :=
  State.reset.Inv ∧ ∀ (image : List Byte) (h : HostInputs) (s : State), State.start image h = .ok s → s.Inv

/-- No state that meets the invariant stops: the core raises no exception (60_exceptions R230), no encoding is illegal
(30_encoding R90), and no string routine hangs. -/
def Obligations.StepAlwaysAnswers : Prop :=
  ∀ s : State, s.Inv → ∃ t, step s = .next t

/-- 10_state R21: a general register changes only as the destination of a writer: DR, R7 for a link, and R0 by GETC and IN
at the end of their wait. -/
def Obligations.OnlyWritersChangeRegisters : Prop :=
  (∀ (i : Instr) (s t : State) (r : Reg), exec i s = .next t → t.reg r ≠ s.reg r →
    (∃ a b, i = .add r a b) ∨ (∃ a b, i = .addi r a b) ∨ (∃ a b, i = .and r a b) ∨ (∃ a b, i = .andi r a b) ∨
    (∃ a, i = .not r a) ∨ (∃ a, i = .ld r a) ∨ (∃ a, i = .ldi r a) ∨ (∃ a b, i = .ldr r a b) ∨ (∃ a, i = .lea r a) ∨
    (r = 7#3 ∧ ((∃ a, i = .jsr a) ∨ ∃ a, i = .jsrr a))) ∧
  ∀ (s t : State) (r : Reg), s.phase ≠ .boundary → step s = .next t → t.reg r ≠ s.reg r →
    r = 0#3 ∧ ∃ w, s.phase = .waitKey w

/-- 41_operate R141: only ADD, AND, NOT, LD, LDI, LDR and LEA change CC, and GETC and IN at the end of their wait; after
any of them CC describes the destination. -/
def Obligations.OnlyWritersChangeFlags : Prop :=
  (∀ (i : Instr) (s t : State), exec i s = .next t →
    (t.cc = s.cc ∨ ∃ r, FlagsOf t.cc (t.reg r) ∧
      ((∃ a b, i = .add r a b) ∨ (∃ a b, i = .addi r a b) ∨ (∃ a b, i = .and r a b) ∨ (∃ a b, i = .andi r a b) ∨
      (∃ a, i = .not r a) ∨ (∃ a, i = .ld r a) ∨ (∃ a, i = .ldi r a) ∨ (∃ a b, i = .ldr r a b) ∨
      ∃ a, i = .lea r a))) ∧
  ∀ s t : State, s.phase ≠ .boundary → step s = .next t →
    t.cc = s.cc ∨ (FlagsOf t.cc (t.reg 0#3) ∧ ∃ w, s.phase = .waitKey w)

/-- 10_state R24: after the fetch increment only BR, JSR, JSRR, JMP and RET write the PC. -/
def Obligations.OnlyTransfersChangePc : Prop :=
  (∀ (i : Instr) (s t : State), exec i s = .next t → t.pc ≠ s.pc →
    (∃ a b, i = .br a b) ∨ (∃ a, i = .jsr a) ∨ (∃ a, i = .jsrr a) ∨ (∃ a, i = .jmp a) ∨ i = .ret) ∧
  ∀ s t : State, s.phase ≠ .boundary → step s = .next t → t.pc = s.pc

/-- 20_memory R51 to R54: an instruction changes no word but plain ones by a store and KBSR by clearing READY; KBDR is
never changed. -/
def Obligations.OnlyStoresChangeMemory : Prop :=
  ∀ (i : Instr) (s t : State) (a : Word), exec i s = .next t → t.memAt a ≠ s.memAt a →
    (a = 0xFE00#16 ∧ t.memAt a = s.memAt a &&& 0x7FFF#16) ∨
    (a ≠ 0xFE00#16 ∧ a ≠ 0xFE02#16 ∧ ((∃ r o, i = .st r o) ∨ (∃ r o, i = .sti r o) ∨ ∃ r b o, i = .str r b o))

/-- 10_state R33, R35, R36: running never rises, sink_error never falls, and the output stream only grows. The model's own
clauses: the stop request stays (log entry 10), the parameters are fixed (log entry 4), and a step uses up one turn of the
schedule (log entry 5). -/
def Obligations.OneWayState : Prop :=
  ∀ s t : State, step s = .next t →
    (t.running = true → s.running = true) ∧ (s.sinkError = true → t.sinkError = true) ∧ s.out <+: t.out ∧
    (s.stopRequested = true → t.stopRequested = true) ∧ t.params = s.params ∧ t.schedule = s.schedule.tail

/-- 20_memory R63, 60_exceptions R243: in a step the bytes on their way (key buffer, then input) stay as they are, or the
byte in the buffer goes to one consumer: to KBDR, or to the GETC or IN that waits (whose echo may fail). -/
def Obligations.EachKeyByteTakenOnce : Prop :=
  ∀ s t : State, step s = .next t →
    t.keyBuf.toList ++ t.kbdIn = s.keyBuf.toList ++ s.kbdIn ∨
    ∃ b, s.keyBuf = some b ∧ t.keyBuf = none ∧ t.kbdIn = s.kbdIn ∧
      ((s.phase = .boundary ∧ t.memAt 0xFE02#16 = b.setWidth 16) ∨
        (s.phase = .waitKey .getc ∧ t.reg 0#3 = b.setWidth 16) ∨
        (s.phase = .waitKey .input ∧ (t.sinkError = true ∨ t.reg 0#3 = b.setWidth 16)))

/-- 60_exceptions R241: while READY is set no byte is staged: KBDR keeps its byte and the key buffer keeps its own through
any iteration. -/
def Obligations.UnreadByteIsKept : Prop :=
  ∀ s t : State, (s.memAt 0xFE00#16).getLsbD 15 = true → step s = .next t →
    t.memAt 0xFE02#16 = s.memAt 0xFE02#16 ∧
    (s.phase = .boundary → turnOf s = .core → t.keyBuf = s.keyBuf ∧ t.kbdIn = s.kbdIn)

/-! ## Boot -/

/-- 70_reset_and_hazards R276, R277: a buffer of fewer than 4 bytes does not load; any other places its big-endian words
from the origin on, below 0xFE00, and leaves every other address. -/
def Obligations.LoaderPlacesImage : Prop :=
  (∀ (buf : List Byte) (m : Memory), buf.length < 4 → loadImage buf m = .error .fileTooShort) ∧
  ∀ (buf : List Byte) (m : Memory) (origin : Word), 4 ≤ buf.length → origin = buf.getD 0 0#8 ++ buf.getD 1 0#8 →
    ∃ m', loadImage buf m = .ok m' ∧ ∀ a : Word,
      (origin ≤ a → a < 0xFE00#16 → 2 * (a.toNat - origin.toNat) + 3 < buf.length →
        m'.read a = buf.getD (2 * (a.toNat - origin.toNat) + 2) 0#8 ++
          buf.getD (2 * (a.toNat - origin.toNat) + 3) 0#8) ∧
      (a < origin ∨ 0xFE00#16 ≤ a ∨ buf.length ≤ 2 * (a.toNat - origin.toNat) + 3 → m'.read a = m.read a)

/-- 10_state R38, 70_reset_and_hazards R271, R277: an image of fewer than 4 bytes does not start; any other does, with the
registers and flags of R38, memory as the loader leaves it over zeros (LoaderPlacesImage says how), R0 to R7 by
P_GPR_RESET, and the keyboard agent at work. An image of 4 bytes loads one word. The host's inputs are lists in the state
(log entry 5). -/
def Obligations.StartSetsEveryState : Prop :=
  ∀ (image : List Byte) (h : HostInputs),
    (image.length < 4 → State.start image h = .error .fileTooShort) ∧
    (4 ≤ image.length → ∃ s, State.start image h = .ok s ∧
      s.pc = 0x3000#16 ∧ s.cc = 0b010#3 ∧ s.running = true ∧ s.phase = .boundary ∧ s.sinkError = false ∧ s.out = [] ∧
      s.keyBuf = none ∧ s.memAt 0xFE00#16 = 0x0000#16 ∧ s.memAt 0xFE02#16 = 0x0000#16 ∧
      loadImage image [] = .ok s.mem ∧ (h.gprReset = .zero → ∀ r, s.reg r = 0x0000#16) ∧
      (h.gprReset = .unknown → ∀ r : Reg, s.reg r = h.gprDraw[r.toNat]'r.isLt) ∧
      (∀ b rest, h.kbdIn = b :: rest → turnOf s = .keyboard →
        step s = .next { takeTurn s with keyBuf := some b, kbdIn := rest }) ∧
      ∀ (hi lo b0 b1 : Byte) (origin : Word), image = [hi, lo, b0, b1] → origin = hi ++ lo → origin < 0xFE00#16 →
        s.memAt origin = b0 ++ b1 ∧ ∀ a, a ≠ origin → s.memAt a = 0x0000#16)

/-- 10_state R38: the state after reset, with no image; R0 to R7 zero is the spec's default of P_GPR_RESET (log entry 3). -/
def Obligations.ResetValues : Prop :=
  (∀ r, State.reset.reg r = 0x0000#16) ∧ State.reset.pc = 0x3000#16 ∧ State.reset.cc = 0b010#3 ∧
  State.reset.running = true ∧ State.reset.phase = .boundary ∧ State.reset.sinkError = false ∧ State.reset.out = [] ∧
  (∀ a, State.reset.memAt a = 0x0000#16) ∧ State.reset.keyBuf = none
end

