-- ==== Sys2Proof/Laws/Memory.lean ====
section
/-! SUPPORT. The memory array: read after write, and the canonical form. -/

namespace Sys2Proof.Machine

theorem Memory.read_insertCell (m : Memory) (k : Nat) (v a : Word) (hm : ∀ c ∈ m, c.1 ≠ k) :
    Memory.read (Memory.insertCell k v m) a = if k = a.toNat then v else Memory.read m a := by
  induction m with
  | nil => simp [Memory.insertCell, Memory.read]
  | cons c rest ih =>
    obtain ⟨k', v'⟩ := c
    have hk : k' ≠ k := hm (k', v') (by simp)
    have ih' := ih (fun c hc => hm c (by simp [hc]))
    by_cases hlt : k < k'
    · simp [Memory.insertCell, hlt, Memory.read]
    · simp only [Memory.insertCell, hlt, if_false, Memory.read, ih']
      by_cases h1 : k' = a.toNat <;> by_cases h2 : k = a.toNat <;> simp [h1, h2]
      omega

theorem Memory.read_filter (m : Memory) (k : Nat) (a : Word) :
    Memory.read (m.filter (fun c => c.1 != k)) a = if k = a.toNat then Memory.unlisted else Memory.read m a := by
  induction m with
  | nil => simp [Memory.read]
  | cons c rest ih =>
    obtain ⟨k', v'⟩ := c
    by_cases h : k' = k
    · subst h
      have hf : ((k', v') :: rest).filter (fun c => c.1 != k') = rest.filter (fun c => c.1 != k') := by simp
      rw [hf, ih]
      by_cases h1 : k' = a.toNat <;> simp [Memory.read, h1]
    · simp only [List.filter_cons, bne_iff_ne, ne_eq, h, not_false_eq_true, if_true, Memory.read, ih]
      by_cases h1 : k' = a.toNat <;> by_cases h2 : k = a.toNat <;> simp [h1, h2]
      omega

/-- Read after write, at the same address and at any other. -/
theorem Memory.read_write (m : Memory) (a v b : Word) :
    Memory.read (m.write a v) b = if b = a then v else Memory.read m b := by
  have key : (a.toNat = b.toNat) = (b = a) := by rw [BitVec.toNat_inj]; exact propext eq_comm
  unfold Memory.write
  by_cases hv : v = Memory.unlisted
  · simp only [hv, if_true, Memory.read_filter, key]
  · simp only [hv, if_false]
    rw [Memory.read_insertCell _ _ _ _ (by simp), Memory.read_filter]
    simp only [key]
    by_cases hb : b = a <;> simp [hb]

/-! ## The canonical form -/

theorem Memory.wfFrom_weaken {m : Memory} {lo lo' : Nat} (h : Memory.wfFrom lo m = true) (hl : lo' ≤ lo) :
    Memory.wfFrom lo' m = true := by
  cases m with
  | nil => rfl
  | cons c rest =>
    obtain ⟨k, v⟩ := c
    simp only [Memory.wfFrom, Bool.and_eq_true, decide_eq_true_eq] at h ⊢
    exact ⟨⟨⟨by omega, h.1.1.2⟩, h.1.2⟩, h.2⟩

theorem Memory.wfFrom_filter (p : Nat × Word → Bool) (m : Memory) (lo : Nat) (h : Memory.wfFrom lo m = true) :
    Memory.wfFrom lo (m.filter p) = true := by
  induction m generalizing lo with
  | nil => rfl
  | cons c rest ih =>
    obtain ⟨k, v⟩ := c
    simp only [Memory.wfFrom, Bool.and_eq_true, decide_eq_true_eq] at h
    have ih' := ih (k + 1) h.2
    by_cases hp : p (k, v) = true
    · simp [hp, Memory.wfFrom, h.1.1.1, h.1.1.2, ih']
      simpa using h.1.2
    · simp only [List.filter_cons, hp]
      exact Memory.wfFrom_weaken ih' (by omega)

theorem Memory.wfFrom_insertCell (m : Memory) (k : Nat) (v : Word) (lo : Nat) (h : Memory.wfFrom lo m = true)
    (hlo : lo ≤ k) (hk : k < 0x10000) (hv : v ≠ Memory.unlisted) (hm : ∀ c ∈ m, c.1 ≠ k) :
    Memory.wfFrom lo (Memory.insertCell k v m) = true := by
  induction m generalizing lo with
  | nil => simp [Memory.insertCell, Memory.wfFrom, hlo, hk, hv]
  | cons c rest ih =>
    obtain ⟨k', v'⟩ := c
    have hk' : k' ≠ k := hm (k', v') (by simp)
    simp only [Memory.wfFrom, Bool.and_eq_true, decide_eq_true_eq] at h
    obtain ⟨⟨⟨h1, h2⟩, h3⟩, h4⟩ := h
    by_cases hlt : k < k'
    · simp only [Memory.insertCell, hlt, if_true, Memory.wfFrom, Bool.and_eq_true, decide_eq_true_eq]
      exact ⟨⟨⟨hlo, hk⟩, by simpa using hv⟩, ⟨⟨by omega, h2⟩, h3⟩, h4⟩
    · simp only [Memory.insertCell, hlt, if_false, Memory.wfFrom, Bool.and_eq_true, decide_eq_true_eq]
      exact ⟨⟨⟨h1, h2⟩, h3⟩, ih (k' + 1) h4 (by omega) (fun c hc => hm c (by simp [hc]))⟩

/-- A write keeps the canonical form. Every memory operation of the machine is a read or a row of writes. -/
theorem Memory.wf_write (m : Memory) (a v : Word) (h : m.wf = true) : (m.write a v).wf = true := by
  have hf := Memory.wfFrom_filter (fun c => c.1 != a.toNat) m 0 h
  unfold Memory.write
  by_cases hv : v = Memory.unlisted
  · simp only [hv, if_true]; exact hf
  · simp only [hv, if_false]
    exact Memory.wfFrom_insertCell _ _ _ 0 hf (Nat.zero_le _) a.isLt hv (by simp)

end Sys2Proof.Machine
end

