-- ==== Sys2Proof/Laws/State.lean ====
section
/-! SUPPORT. The fields of State under each update: one lemma per field per update. -/

namespace Sys2Proof.Machine

/-! ## setReg -/

@[simp] theorem State.setReg_pc (s : State) (r : Reg) (v : Word) : (s.setReg r v).pc = s.pc := rfl
@[simp] theorem State.setReg_cc (s : State) (r : Reg) (v : Word) : (s.setReg r v).cc = s.cc := rfl
@[simp] theorem State.setReg_mem (s : State) (r : Reg) (v : Word) : (s.setReg r v).mem = s.mem := rfl
@[simp] theorem State.setReg_keyBuf (s : State) (r : Reg) (v : Word) : (s.setReg r v).keyBuf = s.keyBuf := rfl
@[simp] theorem State.setReg_running (s : State) (r : Reg) (v : Word) : (s.setReg r v).running = s.running := rfl
@[simp] theorem State.setReg_phase (s : State) (r : Reg) (v : Word) : (s.setReg r v).phase = s.phase := rfl
@[simp] theorem State.setReg_sinkError (s : State) (r : Reg) (v : Word) : (s.setReg r v).sinkError = s.sinkError := rfl
@[simp] theorem State.setReg_out (s : State) (r : Reg) (v : Word) : (s.setReg r v).out = s.out := rfl
@[simp] theorem State.setReg_cause (s : State) (r : Reg) (v : Word) : (s.setReg r v).cause = s.cause := rfl
@[simp] theorem State.setReg_stopRequested (s : State) (r : Reg) (v : Word) : (s.setReg r v).stopRequested = s.stopRequested := rfl
@[simp] theorem State.setReg_params (s : State) (r : Reg) (v : Word) : (s.setReg r v).params = s.params := rfl
@[simp] theorem State.setReg_kbdIn (s : State) (r : Reg) (v : Word) : (s.setReg r v).kbdIn = s.kbdIn := rfl
@[simp] theorem State.setReg_sinkAnswers (s : State) (r : Reg) (v : Word) : (s.setReg r v).sinkAnswers = s.sinkAnswers := rfl
@[simp] theorem State.setReg_schedule (s : State) (r : Reg) (v : Word) : (s.setReg r v).schedule = s.schedule := rfl

/-! ## setPc -/

@[simp] theorem State.setPc_regs (s : State) (a : Word) : (s.setPc a).regs = s.regs := rfl
@[simp] theorem State.setPc_cc (s : State) (a : Word) : (s.setPc a).cc = s.cc := rfl
@[simp] theorem State.setPc_mem (s : State) (a : Word) : (s.setPc a).mem = s.mem := rfl
@[simp] theorem State.setPc_keyBuf (s : State) (a : Word) : (s.setPc a).keyBuf = s.keyBuf := rfl
@[simp] theorem State.setPc_running (s : State) (a : Word) : (s.setPc a).running = s.running := rfl
@[simp] theorem State.setPc_phase (s : State) (a : Word) : (s.setPc a).phase = s.phase := rfl
@[simp] theorem State.setPc_sinkError (s : State) (a : Word) : (s.setPc a).sinkError = s.sinkError := rfl
@[simp] theorem State.setPc_out (s : State) (a : Word) : (s.setPc a).out = s.out := rfl
@[simp] theorem State.setPc_cause (s : State) (a : Word) : (s.setPc a).cause = s.cause := rfl
@[simp] theorem State.setPc_stopRequested (s : State) (a : Word) : (s.setPc a).stopRequested = s.stopRequested := rfl
@[simp] theorem State.setPc_params (s : State) (a : Word) : (s.setPc a).params = s.params := rfl
@[simp] theorem State.setPc_kbdIn (s : State) (a : Word) : (s.setPc a).kbdIn = s.kbdIn := rfl
@[simp] theorem State.setPc_sinkAnswers (s : State) (a : Word) : (s.setPc a).sinkAnswers = s.sinkAnswers := rfl
@[simp] theorem State.setPc_schedule (s : State) (a : Word) : (s.setPc a).schedule = s.schedule := rfl
@[simp] theorem State.setPc_pc (s : State) (a : Word) : (s.setPc a).pc = a := rfl

/-! ## setCC -/

@[simp] theorem State.setCC_regs (s : State) (v : Word) : (s.setCC v).regs = s.regs := rfl
@[simp] theorem State.setCC_pc (s : State) (v : Word) : (s.setCC v).pc = s.pc := rfl
@[simp] theorem State.setCC_mem (s : State) (v : Word) : (s.setCC v).mem = s.mem := rfl
@[simp] theorem State.setCC_keyBuf (s : State) (v : Word) : (s.setCC v).keyBuf = s.keyBuf := rfl
@[simp] theorem State.setCC_running (s : State) (v : Word) : (s.setCC v).running = s.running := rfl
@[simp] theorem State.setCC_phase (s : State) (v : Word) : (s.setCC v).phase = s.phase := rfl
@[simp] theorem State.setCC_sinkError (s : State) (v : Word) : (s.setCC v).sinkError = s.sinkError := rfl
@[simp] theorem State.setCC_out (s : State) (v : Word) : (s.setCC v).out = s.out := rfl
@[simp] theorem State.setCC_cause (s : State) (v : Word) : (s.setCC v).cause = s.cause := rfl
@[simp] theorem State.setCC_stopRequested (s : State) (v : Word) : (s.setCC v).stopRequested = s.stopRequested := rfl
@[simp] theorem State.setCC_params (s : State) (v : Word) : (s.setCC v).params = s.params := rfl
@[simp] theorem State.setCC_kbdIn (s : State) (v : Word) : (s.setCC v).kbdIn = s.kbdIn := rfl
@[simp] theorem State.setCC_sinkAnswers (s : State) (v : Word) : (s.setCC v).sinkAnswers = s.sinkAnswers := rfl
@[simp] theorem State.setCC_schedule (s : State) (v : Word) : (s.setCC v).schedule = s.schedule := rfl
@[simp] theorem State.setCC_cc (s : State) (v : Word) : (s.setCC v).cc = flagOf v := rfl

/-! ## setMem -/

@[simp] theorem State.setMem_regs (s : State) (a v : Word) : (s.setMem a v).regs = s.regs := rfl
@[simp] theorem State.setMem_pc (s : State) (a v : Word) : (s.setMem a v).pc = s.pc := rfl
@[simp] theorem State.setMem_cc (s : State) (a v : Word) : (s.setMem a v).cc = s.cc := rfl
@[simp] theorem State.setMem_keyBuf (s : State) (a v : Word) : (s.setMem a v).keyBuf = s.keyBuf := rfl
@[simp] theorem State.setMem_running (s : State) (a v : Word) : (s.setMem a v).running = s.running := rfl
@[simp] theorem State.setMem_phase (s : State) (a v : Word) : (s.setMem a v).phase = s.phase := rfl
@[simp] theorem State.setMem_sinkError (s : State) (a v : Word) : (s.setMem a v).sinkError = s.sinkError := rfl
@[simp] theorem State.setMem_out (s : State) (a v : Word) : (s.setMem a v).out = s.out := rfl
@[simp] theorem State.setMem_cause (s : State) (a v : Word) : (s.setMem a v).cause = s.cause := rfl
@[simp] theorem State.setMem_stopRequested (s : State) (a v : Word) : (s.setMem a v).stopRequested = s.stopRequested := rfl
@[simp] theorem State.setMem_params (s : State) (a v : Word) : (s.setMem a v).params = s.params := rfl
@[simp] theorem State.setMem_kbdIn (s : State) (a v : Word) : (s.setMem a v).kbdIn = s.kbdIn := rfl
@[simp] theorem State.setMem_sinkAnswers (s : State) (a v : Word) : (s.setMem a v).sinkAnswers = s.sinkAnswers := rfl
@[simp] theorem State.setMem_schedule (s : State) (a v : Word) : (s.setMem a v).schedule = s.schedule := rfl
@[simp] theorem State.setMem_mem (s : State) (a v : Word) : (s.setMem a v).mem = s.mem.write a v := rfl

/-! ## setRegFlags -/

@[simp] theorem State.setRegFlags_pc (s : State) (r : Reg) (v : Word) : (s.setRegFlags r v).pc = s.pc := rfl
@[simp] theorem State.setRegFlags_mem (s : State) (r : Reg) (v : Word) : (s.setRegFlags r v).mem = s.mem := rfl
@[simp] theorem State.setRegFlags_keyBuf (s : State) (r : Reg) (v : Word) : (s.setRegFlags r v).keyBuf = s.keyBuf := rfl
@[simp] theorem State.setRegFlags_running (s : State) (r : Reg) (v : Word) : (s.setRegFlags r v).running = s.running := rfl
@[simp] theorem State.setRegFlags_phase (s : State) (r : Reg) (v : Word) : (s.setRegFlags r v).phase = s.phase := rfl
@[simp] theorem State.setRegFlags_sinkError (s : State) (r : Reg) (v : Word) : (s.setRegFlags r v).sinkError = s.sinkError := rfl
@[simp] theorem State.setRegFlags_out (s : State) (r : Reg) (v : Word) : (s.setRegFlags r v).out = s.out := rfl
@[simp] theorem State.setRegFlags_cause (s : State) (r : Reg) (v : Word) : (s.setRegFlags r v).cause = s.cause := rfl
@[simp] theorem State.setRegFlags_stopRequested (s : State) (r : Reg) (v : Word) : (s.setRegFlags r v).stopRequested = s.stopRequested := rfl
@[simp] theorem State.setRegFlags_params (s : State) (r : Reg) (v : Word) : (s.setRegFlags r v).params = s.params := rfl
@[simp] theorem State.setRegFlags_kbdIn (s : State) (r : Reg) (v : Word) : (s.setRegFlags r v).kbdIn = s.kbdIn := rfl
@[simp] theorem State.setRegFlags_sinkAnswers (s : State) (r : Reg) (v : Word) : (s.setRegFlags r v).sinkAnswers = s.sinkAnswers := rfl
@[simp] theorem State.setRegFlags_schedule (s : State) (r : Reg) (v : Word) : (s.setRegFlags r v).schedule = s.schedule := rfl

/-! ## Reading a register after an update -/

theorem State.reg_setReg (s : State) (d r : Reg) (v : Word) :
    (s.setReg d v).reg r = if r = d then v else s.reg r := by
  simp only [State.reg, State.setReg, Vector.getElem_set, BitVec.toNat_inj]
  by_cases h : r = d
  · simp [h]
  · simp [h, Ne.symm h]

@[simp] theorem State.reg_setReg_same (s : State) (d : Reg) (v : Word) : (s.setReg d v).reg d = v := by
  simp [State.reg_setReg]

@[simp] theorem State.reg_setPc (s : State) (a : Word) (r : Reg) : (s.setPc a).reg r = s.reg r := rfl
@[simp] theorem State.reg_setCC (s : State) (v : Word) (r : Reg) : (s.setCC v).reg r = s.reg r := rfl
@[simp] theorem State.reg_setMem (s : State) (a v : Word) (r : Reg) : (s.setMem a v).reg r = s.reg r := rfl

theorem State.reg_setRegFlags (s : State) (d r : Reg) (v : Word) :
    (s.setRegFlags d v).reg r = if r = d then v else s.reg r := State.reg_setReg s d r v

@[simp] theorem State.setRegFlags_cc (s : State) (d : Reg) (v : Word) : (s.setRegFlags d v).cc = flagOf v := by
  simp [State.setRegFlags]

/-- What writing a register with flags leaves alone. -/
theorem State.setRegFlags_frame (s : State) (d : Reg) (v : Word) :
    s.setRegFlags d v = { s with regs := (s.setRegFlags d v).regs, cc := (s.setRegFlags d v).cc } := rfl

/-! ## Reading memory after an update -/

@[simp] theorem State.memAt_setReg (s : State) (d : Reg) (v a : Word) : (s.setReg d v).memAt a = s.memAt a := rfl
@[simp] theorem State.memAt_setPc (s : State) (p a : Word) : (s.setPc p).memAt a = s.memAt a := rfl
@[simp] theorem State.memAt_setRegFlags (s : State) (d : Reg) (v a : Word) :
    (s.setRegFlags d v).memAt a = s.memAt a := rfl

end Sys2Proof.Machine
end

