-- ==== Sys2Proof/Laws/Ops.lean ====
section
/-! SUPPORT. What each shared operation does, once: MemRead, MemWrite, DevSet, the sink. -/

namespace Sys2Proof.Machine

theorem State.memAt_setMem (s : State) (a v b : Word) :
    (s.setMem a v).memAt b = if b = a then v else s.memAt b := Memory.read_write s.mem a v b

/-! ## MemRead and MemWrite -/

@[simp] theorem memRead_fst (s : State) (a : Word) : (memRead s a).1 = s.memAt a := by
  unfold memRead
  by_cases h : a = kbdrAddr
  · simp [h, devSet, State.memAt_setMem, kbdrAddr, kbsrAddr]
  · simp [h]

theorem memRead_snd (s : State) (a : Word) :
    (memRead s a).2 = if a = kbdrAddr then s.setMem kbsrAddr (s.kbsr &&& 0x7FFF#16) else s := rfl

theorem memRead_memAt (s : State) (a b : Word) : (memRead s a).2.memAt b = afterRead s a b := by
  rw [memRead_snd]
  unfold afterRead
  by_cases h : a = kbdrAddr
  · by_cases hb : b = kbsrAddr <;> simp_all [State.memAt_setMem, kbdrAddr, kbsrAddr, State.kbsr]
  · simp_all [kbdrAddr]

/-- MemRead changes memory only. -/
theorem memRead_frame (s : State) (a : Word) : (memRead s a).2 = { s with mem := (memRead s a).2.mem } := by
  rw [memRead_snd]
  split <;> rfl

@[simp] theorem memRead_reg (s : State) (a : Word) (r : Reg) : (memRead s a).2.reg r = s.reg r := by
  rw [memRead_frame]; rfl

theorem memRead_wf (s : State) (a : Word) (h : s.mem.wf = true) : (memRead s a).2.mem.wf = true := by
  rw [memRead_snd]
  split
  · exact Memory.wf_write _ _ _ h
  · exact h

theorem memWrite_memAt (s : State) (a v b : Word) :
    (memWrite s a v).memAt b = if b = a ∧ a ≠ kbsrAddr ∧ a ≠ kbdrAddr then v else s.memAt b := by
  unfold memWrite
  by_cases h : a = kbsrAddr ∨ a = kbdrAddr
  · rw [if_pos h, if_neg]
    rintro ⟨-, h1, h2⟩
    exact h.elim h1 h2
  · rw [if_neg h, State.memAt_setMem]
    simp only [not_or] at h
    simp [h.1, h.2]

/-- MemWrite changes memory only. -/
theorem memWrite_frame (s : State) (a v : Word) : memWrite s a v = { s with mem := (memWrite s a v).mem } := by
  unfold memWrite
  split <;> rfl

theorem memWrite_wf (s : State) (a v : Word) (h : s.mem.wf = true) : (memWrite s a v).mem.wf = true := by
  unfold memWrite
  split
  · exact h
  · exact Memory.wf_write _ _ _ h

/-- DevSet keeps the canonical form. -/
theorem devSet_wf (s : State) (a v : Word) (h : s.mem.wf = true) : (devSet s a v).mem.wf = true :=
  Memory.wf_write _ _ _ h

/-! ## The sink -/

/-- What one Emit can do. -/
theorem emit_cases (b : Byte) (s : State) :
    (sinkFails s = false ∧ emit b s = .sent (accepted s [b])) ∨
    (sinkFails s = true ∧ emit b s = .failed (failedAfter s [])) := by
  unfold emit accepted failedAfter
  cases hf : sinkFails s with
  | false => simp [List.drop_one]
  | true =>
    cases hr : s.running <;> simp [sinkFailure, clearRunning]

theorem accepted_nil (s : State) : accepted s [] = s := by simp [accepted]

theorem accepted_append (s : State) (bs cs : List Byte) : accepted (accepted s bs) cs = accepted s (bs ++ cs) := by
  simp [accepted, List.append_assoc]

theorem failedAfter_accepted (s : State) (bs cs : List Byte) :
    failedAfter (accepted s bs) cs = failedAfter s (bs ++ cs) := by
  simp only [accepted, failedAfter, List.append_assoc, List.drop_drop, List.length_append, Nat.add_assoc]
  rfl

/-- What a row of Emits can do: all sent, or failed after some of the bytes. -/
theorem emitAll_cases (bs : List Byte) (s : State) :
    emitAll bs s = .sent (accepted s bs) ∨ ∃ n < bs.length, emitAll bs s = .failed (failedAfter s (bs.take n)) := by
  induction bs generalizing s with
  | nil => left; simp [emitAll, accepted_nil]
  | cons b bs ih =>
    rcases emit_cases b s with ⟨-, h⟩ | ⟨-, h⟩
    · rcases ih (accepted s [b]) with h2 | ⟨n, hn, h2⟩
      · left; simp [emitAll, h, h2, accepted_append]
      · right
        exact ⟨n + 1, by simpa using hn, by simp [emitAll, h, h2, failedAfter_accepted]⟩
    · right; exact ⟨0, by simp, by simp [emitAll, h]⟩

end Sys2Proof.Machine
end

