-- ==== Sys2Proof/Laws/PerInstr.lean ====
section
/-! SUPPORT. Statements about every instruction as syntax: the opcode its encoding carries. -/

namespace Sys2Proof

/-- Bits 15:12 of each instruction, from the opcode map of 30_encoding R88. -/
def Laws.Opcode.expected : Instr → BitVec 4
  | .br _ _ => 0b0000#4
  | .add _ _ _ => 0b0001#4
  | .addi _ _ _ => 0b0001#4
  | .ld _ _ => 0b0010#4
  | .st _ _ => 0b0011#4
  | .jsr _ => 0b0100#4
  | .jsrr _ => 0b0100#4
  | .and _ _ _ => 0b0101#4
  | .andi _ _ _ => 0b0101#4
  | .ldr _ _ _ => 0b0110#4
  | .str _ _ _ => 0b0111#4
  | .rti => 0b1000#4
  | .not _ _ => 0b1001#4
  | .ldi _ _ => 0b1010#4
  | .sti _ _ => 0b1011#4
  | .jmp _ => 0b1100#4
  | .ret => 0b1100#4
  | .res => 0b1101#4
  | .lea _ _ => 0b1110#4
  | .trapGetc => 0b1111#4
  | .trapOut => 0b1111#4
  | .trapPuts => 0b1111#4
  | .trapIn => 0b1111#4
  | .trapPutsp => 0b1111#4
  | .trapHalt => 0b1111#4
  | .trap _ => 0b1111#4

/-- The encoding of an instruction carries the opcode of its row. -/
def Laws.Opcode.Statement (i : Instr) : Prop := opcodeField (encode i) = Laws.Opcode.expected i

/-! ## The opcode at the head of a row of fields -/

theorem opcode_head_1_11 (o : BitVec 4) (a : BitVec 1) (b : BitVec 11) : opcodeField (o ++ a ++ b) = o := by
  show BitVec.extractLsb' 12 4 (o ++ a ++ b) = o
  rw [BitVec.extractLsb'_append_eq_of_le (by decide), BitVec.extractLsb'_append_eq_of_le (by decide)]
  simp

theorem opcode_head_3_9 (o : BitVec 4) (a : BitVec 3) (b : BitVec 9) : opcodeField (o ++ a ++ b) = o := by
  show BitVec.extractLsb' 12 4 (o ++ a ++ b) = o
  rw [BitVec.extractLsb'_append_eq_of_le (by decide), BitVec.extractLsb'_append_eq_of_le (by decide)]
  simp

theorem opcode_head_3_3_6 (o : BitVec 4) (a : BitVec 3) (b : BitVec 3) (c : BitVec 6) : opcodeField (o ++ a ++ b ++ c) = o := by
  show BitVec.extractLsb' 12 4 (o ++ a ++ b ++ c) = o
  rw [BitVec.extractLsb'_append_eq_of_le (by decide), BitVec.extractLsb'_append_eq_of_le (by decide), BitVec.extractLsb'_append_eq_of_le (by decide)]
  simp

theorem opcode_head_3_3_3_3 (o : BitVec 4) (a : BitVec 3) (b : BitVec 3) (c : BitVec 3) (d : BitVec 3) : opcodeField (o ++ a ++ b ++ c ++ d) = o := by
  show BitVec.extractLsb' 12 4 (o ++ a ++ b ++ c ++ d) = o
  rw [BitVec.extractLsb'_append_eq_of_le (by decide), BitVec.extractLsb'_append_eq_of_le (by decide), BitVec.extractLsb'_append_eq_of_le (by decide), BitVec.extractLsb'_append_eq_of_le (by decide)]
  simp

theorem opcode_head_3_3_1_5 (o : BitVec 4) (a : BitVec 3) (b : BitVec 3) (c : BitVec 1) (d : BitVec 5) : opcodeField (o ++ a ++ b ++ c ++ d) = o := by
  show BitVec.extractLsb' 12 4 (o ++ a ++ b ++ c ++ d) = o
  rw [BitVec.extractLsb'_append_eq_of_le (by decide), BitVec.extractLsb'_append_eq_of_le (by decide), BitVec.extractLsb'_append_eq_of_le (by decide), BitVec.extractLsb'_append_eq_of_le (by decide)]
  simp

theorem opcode_head_4_8 (o : BitVec 4) (a : BitVec 4) (b : BitVec 8) : opcodeField (o ++ a ++ b) = o := by
  show BitVec.extractLsb' 12 4 (o ++ a ++ b) = o
  rw [BitVec.extractLsb'_append_eq_of_le (by decide), BitVec.extractLsb'_append_eq_of_le (by decide)]
  simp

/-! ## One lemma per instruction -/

theorem Laws.Opcode.br (a : BitVec 3) (b : BitVec 9) : Laws.Opcode.Statement (.br a b) := opcode_head_3_9 _ _ _
theorem Laws.Opcode.add (a b c : Reg) : Laws.Opcode.Statement (.add a b c) := opcode_head_3_3_3_3 _ _ _ _ _
theorem Laws.Opcode.addi (a b : Reg) (c : BitVec 5) : Laws.Opcode.Statement (.addi a b c) := opcode_head_3_3_1_5 _ _ _ _ _
theorem Laws.Opcode.ld (a : Reg) (b : BitVec 9) : Laws.Opcode.Statement (.ld a b) := opcode_head_3_9 _ _ _
theorem Laws.Opcode.st (a : Reg) (b : BitVec 9) : Laws.Opcode.Statement (.st a b) := opcode_head_3_9 _ _ _
theorem Laws.Opcode.jsr (a : BitVec 11) : Laws.Opcode.Statement (.jsr a) := opcode_head_1_11 _ _ _
theorem Laws.Opcode.jsrr (a : Reg) : Laws.Opcode.Statement (.jsrr a) := opcode_head_3_3_6 _ _ _ _
theorem Laws.Opcode.and (a b c : Reg) : Laws.Opcode.Statement (.and a b c) := opcode_head_3_3_3_3 _ _ _ _ _
theorem Laws.Opcode.andi (a b : Reg) (c : BitVec 5) : Laws.Opcode.Statement (.andi a b c) := opcode_head_3_3_1_5 _ _ _ _ _
theorem Laws.Opcode.ldr (a b : Reg) (c : BitVec 6) : Laws.Opcode.Statement (.ldr a b c) := opcode_head_3_3_6 _ _ _ _
theorem Laws.Opcode.str (a b : Reg) (c : BitVec 6) : Laws.Opcode.Statement (.str a b c) := opcode_head_3_3_6 _ _ _ _
theorem Laws.Opcode.rti : Laws.Opcode.Statement .rti := rfl
theorem Laws.Opcode.not (a b : Reg) : Laws.Opcode.Statement (.not a b) := opcode_head_3_3_6 _ _ _ _
theorem Laws.Opcode.ldi (a : Reg) (b : BitVec 9) : Laws.Opcode.Statement (.ldi a b) := opcode_head_3_9 _ _ _
theorem Laws.Opcode.sti (a : Reg) (b : BitVec 9) : Laws.Opcode.Statement (.sti a b) := opcode_head_3_9 _ _ _
theorem Laws.Opcode.jmp (a : Reg) : Laws.Opcode.Statement (.jmp a) := opcode_head_3_3_6 _ _ _ _
theorem Laws.Opcode.ret : Laws.Opcode.Statement .ret := rfl
theorem Laws.Opcode.res : Laws.Opcode.Statement .res := rfl
theorem Laws.Opcode.lea (a : Reg) (b : BitVec 9) : Laws.Opcode.Statement (.lea a b) := opcode_head_3_9 _ _ _
theorem Laws.Opcode.trapGetc : Laws.Opcode.Statement .trapGetc := rfl
theorem Laws.Opcode.trapOut : Laws.Opcode.Statement .trapOut := rfl
theorem Laws.Opcode.trapPuts : Laws.Opcode.Statement .trapPuts := rfl
theorem Laws.Opcode.trapIn : Laws.Opcode.Statement .trapIn := rfl
theorem Laws.Opcode.trapPutsp : Laws.Opcode.Statement .trapPutsp := rfl
theorem Laws.Opcode.trapHalt : Laws.Opcode.Statement .trapHalt := rfl
theorem Laws.Opcode.trap (a : BitVec 8) : Laws.Opcode.Statement (.trap a) := opcode_head_4_8 _ _ _

end Sys2Proof
end

