-- ==== Sys2Proof/Laws/Trap.lean ====
section
/-! SUPPORT. The string loop of PUTS and PUTSP (43_trap R194, R197, R200): the memory it leaves, the words it reads,
and where it ends. -/

namespace Sys2Proof.Machine

/-! ## A row of reads -/

/-- The state after MemRead of k addresses from a on. -/
def readRun (a : Word) (s : State) : Nat → State
  | 0 => s
  | k + 1 => (memRead (readRun a s k) (a + BitVec.ofNat 16 k)).2

/-- The k-th word read from a on. -/
def wordAt (a : Word) (s : State) (k : Nat) : Word := (readRun a s k).memAt (a + BitVec.ofNat 16 k)

/-- The bytes a string routine emits for the first k words. -/
def bytesUpTo (f : Word → List Byte) (a : Word) (s : State) (k : Nat) : List Byte :=
  (List.range k).flatMap (fun j => f (wordAt a s j))

theorem readRun_frame (a : Word) (s : State) (k : Nat) : readRun a s k = { s with mem := (readRun a s k).mem } := by
  induction k with
  | zero => rfl
  | succ k ih => rw [readRun, memRead_frame, ih]

theorem readRun_other (a : Word) (s : State) (k : Nat) (b : Word) (hb : b ≠ 0xFE00#16) :
    (readRun a s k).memAt b = s.memAt b := by
  induction k with
  | zero => rfl
  | succ k ih => rw [readRun, memRead_memAt, afterRead, if_neg (fun h => hb h.2), ih]

theorem passesKbdr_succ (a : Word) (k : Nat) :
    passesKbdr a (k + 1) ↔ passesKbdr a k ∨ a + BitVec.ofNat 16 k = 0xFE02#16 := by
  constructor
  · rintro ⟨j, hj, h⟩
    rcases Nat.lt_succ_iff_lt_or_eq.mp hj with hlt | rfl
    · exact .inl ⟨j, hlt, h⟩
    · exact .inr h
  · rintro (⟨j, hj, h⟩ | h)
    · exact ⟨j, by omega, h⟩
    · exact ⟨k, by omega, h⟩

/-- Reading on clears READY once KBDR is passed, and changes KBSR in no other way. -/
theorem readRun_kbsr (a : Word) (s : State) (k : Nat) :
    (passesKbdr a k → (readRun a s k).memAt 0xFE00#16 = s.memAt 0xFE00#16 &&& 0x7FFF#16) ∧
    (¬ passesKbdr a k → (readRun a s k).memAt 0xFE00#16 = s.memAt 0xFE00#16) := by
  induction k with
  | zero => exact ⟨fun ⟨_, h, _⟩ => absurd h (Nat.not_lt_zero _), fun _ => rfl⟩
  | succ k ih =>
    rw [passesKbdr_succ, readRun, memRead_memAt, afterRead]
    by_cases hk : a + BitVec.ofNat 16 k = 0xFE02#16
    · by_cases hp : passesKbdr a k
      · simp [hk, ih.1 hp, BitVec.and_assoc]
      · simp [hk, ih.2 hp]
    · simpa [hk] using ih

theorem readRun_stringMemory (s : State) (k : Nat) : StringMemory s (readRun (s.reg 0#3) s k) k :=
  ⟨(readRun_kbsr _ s k).1, (readRun_kbsr _ s k).2, fun b hb => readRun_other _ s k b hb⟩

theorem isStringWord_iff (s : State) (a : Word) (k : Nat) (w : Word) :
    IsStringWord s a k w ↔ w = wordAt a s k := by
  unfold IsStringWord wordAt
  by_cases hb : a + BitVec.ofNat 16 k = 0xFE00#16
  · by_cases hp : passesKbdr a k
    · simp [hb, hp, (readRun_kbsr a s k).1 hp]
    · simp [hb, hp, (readRun_kbsr a s k).2 hp]
  · simp [hb, readRun_other a s k _ hb]

/-- Once round the memory KBDR has been read, so from then on the words repeat. -/
theorem wordAt_period (a : Word) (s : State) (k : Nat) (hk : 0x10000 ≤ k) :
    wordAt a s (k + 0x10000) = wordAt a s k := by
  have hp : ∀ n, 0x10000 ≤ n → passesKbdr a n := by
    intro n hn
    refine ⟨(0xFE02#16 - a).toNat, by have := (0xFE02#16 - a).isLt; omega, ?_⟩
    rw [BitVec.ofNat_toNat, BitVec.setWidth_eq, BitVec.add_comm, BitVec.sub_add_cancel]
  have ha : a + BitVec.ofNat 16 (k + 0x10000) = a + BitVec.ofNat 16 k := by
    have h : BitVec.ofNat 16 (k + 0x10000) = BitVec.ofNat 16 k := by
      apply BitVec.eq_of_toNat_eq
      rw [BitVec.toNat_ofNat, BitVec.toNat_ofNat]
      omega
    exact congrArg (a + ·) h
  unfold wordAt
  rw [ha]
  by_cases hb : a + BitVec.ofNat 16 k = 0xFE00#16
  · rw [hb, (readRun_kbsr a s _).1 (hp _ (by omega)), (readRun_kbsr a s _).1 (hp _ hk)]
  · rw [readRun_other a s _ _ hb, readRun_other a s _ _ hb]

/-! ## The loop -/

theorem memRead_accepted (s : State) (bs : List Byte) (a : Word) :
    (memRead (accepted s bs) a).2 = accepted (memRead s a).2 bs := by
  rw [memRead_snd, memRead_snd]
  split <;> rfl

theorem sinkAccepts_accepted (s : State) (bs : List Byte) (n : Nat) (h : SinkAccepts (bs.length + n) s) :
    SinkAccepts n (accepted s bs) := by
  rcases h with h | h
  · exact .inl h
  · refine .inr fun k hk => ?_
    simpa [accepted, List.getElem?_drop] using h (bs.length + k) (by omega)

/-- A sink that takes n bytes takes the first byte, and any fewer. -/
theorem sinkAccepts_mono {n m : Nat} {s : State} (h : SinkAccepts n s) (hm : m ≤ n) : SinkAccepts m s :=
  h.imp id fun h k hk => h k (by omega)

theorem sinkFails_of_accepts {n : Nat} {s : State} (h : SinkAccepts (n + 1) s) : sinkFails s = false := by
  rcases h with h | h
  · simp [sinkFails, h]
  · have := h 0 (by omega)
    rw [← List.head?_eq_getElem?] at this
    simp [sinkFails, this]

theorem emitAll_accepts (bs : List Byte) (s : State) (h : SinkAccepts bs.length s) :
    emitAll bs s = .sent (accepted s bs) := by
  induction bs generalizing s with
  | nil => simp [emitAll, accepted_nil]
  | cons b bs ih =>
    rcases emit_cases b s with ⟨-, he⟩ | ⟨hf, -⟩
    · have := ih (accepted s [b]) (sinkAccepts_accepted s [b] _ (by simpa [Nat.add_comm] using h))
      simp [emitAll, he, this, accepted_append]
    · simp [sinkFails_of_accepts h] at hf

theorem emitAll_fails (bs : List Byte) (s : State) (n : Nat) (hn : n < bs.length) (h : SinkFailsAt n s) :
    emitAll bs s = .failed (failedAfter s (bs.take n)) := by
  induction bs generalizing s n with
  | nil => simp at hn
  | cons b bs ih =>
    obtain ⟨hm, ha, he⟩ := h
    cases n with
    | zero =>
      have hf : sinkFails s = true := by simp [sinkFails, hm, List.head?_eq_getElem?, he]
      rcases emit_cases b s with ⟨h0, -⟩ | ⟨-, h1⟩
      · simp [hf] at h0
      · simp [emitAll, h1]
    | succ n =>
      have hs : SinkAccepts 1 s := .inr fun k hk => ha k (by omega)
      rcases emit_cases b s with ⟨-, h1⟩ | ⟨h0, -⟩
      · have := ih (accepted s [b]) n (by simpa using hn)
          ⟨hm, fun k hk => by simpa [accepted, Nat.add_comm] using ha (k + 1) (by omega),
            by simpa [accepted, Nat.add_comm] using he⟩
        simp [emitAll, h1, this, failedAfter_accepted]
      · simp [sinkFails_of_accepts hs] at h0

theorem bytesUpTo_succ (f : Word → List Byte) (a : Word) (s : State) (k : Nat) :
    bytesUpTo f a s (k + 1) = bytesUpTo f a s k ++ f (wordAt a s k) := by
  simp [bytesUpTo, List.range_succ]

theorem ofNat_succ_add (a : Word) (k : Nat) :
    a + BitVec.ofNat 16 k + 1#16 = a + BitVec.ofNat 16 (k + 1) := by
  rw [BitVec.add_assoc]
  congr 1
  apply BitVec.eq_of_toNat_eq
  simp

/-- One turn of the loop, after k words. -/
theorem stringLoop_turn (f : Word → List Byte) (n : Nat) (a : Word) (s : State) (k : Nat) :
    stringLoop f (n + 1) (a + BitVec.ofNat 16 k) (accepted (readRun a s k) (bytesUpTo f a s k)) =
      if wordAt a s k = 0x0000#16 then some (accepted (readRun a s (k + 1)) (bytesUpTo f a s k))
      else
        match emitAll (f (wordAt a s k)) (accepted (readRun a s (k + 1)) (bytesUpTo f a s k)) with
        | .failed t => some t
        | .sent t => stringLoop f n (a + BitVec.ofNat 16 (k + 1)) t := by
  have hw : (memRead (accepted (readRun a s k) (bytesUpTo f a s k)) (a + BitVec.ofNat 16 k)).1 = wordAt a s k := by
    rw [memRead_fst]; rfl
  rw [stringLoop]
  simp only [hw, memRead_accepted, ofNat_succ_add]
  rfl

/-- While words are not zero and the sink takes their bytes, the loop goes on. -/
theorem stringLoop_skip (f : Word → List Byte) (n : Nat) (a : Word) (s : State) (k : Nat)
    (hw : ∀ j < k, wordAt a s j ≠ 0x0000#16) (hs : SinkAccepts (bytesUpTo f a s k).length s) :
    stringLoop f (n + k) a s =
      stringLoop f n (a + BitVec.ofNat 16 k) (accepted (readRun a s k) (bytesUpTo f a s k)) := by
  induction k generalizing n with
  | zero => simp [readRun, bytesUpTo, accepted_nil]
  | succ k ih =>
    rw [bytesUpTo_succ, List.length_append] at hs
    have h1 := ih (n + 1) (fun j hj => hw j (by omega)) (sinkAccepts_mono hs (by omega))
    rw [show n + (k + 1) = n + 1 + k by omega, h1, stringLoop_turn, if_neg (hw k (by omega))]
    have hs' : SinkAccepts (f (wordAt a s k)).length (accepted (readRun a s (k + 1)) (bytesUpTo f a s k)) := by
      apply sinkAccepts_accepted
      rw [readRun_frame]
      exact hs
    rw [emitAll_accepts _ _ hs']
    simp only [accepted_append, bytesUpTo_succ]

/-- The loop ends at the first zero word. -/
theorem stringLoop_zero (f : Word → List Byte) (fuel : Nat) (a : Word) (s : State) (k : Nat) (hk : k < fuel)
    (hw : ∀ j < k, wordAt a s j ≠ 0x0000#16) (hz : wordAt a s k = 0x0000#16)
    (hs : SinkAccepts (bytesUpTo f a s k).length s) :
    stringLoop f fuel a s = some (accepted (readRun a s (k + 1)) (bytesUpTo f a s k)) := by
  obtain ⟨n, rfl⟩ : ∃ n, fuel = n + 1 + k := ⟨fuel - 1 - k, by omega⟩
  rw [stringLoop_skip f (n + 1) a s k hw hs, stringLoop_turn, if_pos hz]

/-- The loop ends at the first failing write: the m-th byte of word k. -/
theorem stringLoop_fails (f : Word → List Byte) (fuel : Nat) (a : Word) (s : State) (k m : Nat) (hk : k < fuel)
    (hw : ∀ j ≤ k, wordAt a s j ≠ 0x0000#16) (hm : m < (f (wordAt a s k)).length)
    (hs : SinkFailsAt ((bytesUpTo f a s k).length + m) s) :
    stringLoop f fuel a s =
      some (failedAfter (readRun a s (k + 1)) (bytesUpTo f a s k ++ (f (wordAt a s k)).take m)) := by
  obtain ⟨n, rfl⟩ : ∃ n, fuel = n + 1 + k := ⟨fuel - 1 - k, by omega⟩
  rw [stringLoop_skip f (n + 1) a s k (fun j hj => hw j (by omega)) (.inr fun j hj => hs.2.1 j (by omega)),
    stringLoop_turn, if_neg (hw k (by omega)), emitAll_fails _ _ m hm]
  · simp [failedAfter_accepted]
  · rw [readRun_frame]
    refine ⟨hs.1, fun j hj => ?_, ?_⟩
    · simpa [accepted, List.getElem?_drop] using hs.2.1 ((bytesUpTo f a s k).length + j) (by omega)
    · simpa [accepted, List.getElem?_drop] using hs.2.2

/-- The loop has not ended while no word is zero and no write fails. -/
theorem stringLoop_none (f : Word → List Byte) (fuel : Nat) (a : Word) (s : State)
    (hw : ∀ j < fuel, wordAt a s j ≠ 0x0000#16) (hs : SinkAccepts (bytesUpTo f a s fuel).length s) :
    stringLoop f fuel a s = none := by
  have := stringLoop_skip f 0 a s fuel hw hs
  rw [Nat.zero_add] at this
  rw [this]
  rfl

end Sys2Proof.Machine
end

