-- ==== Sys2Proof/Laws/Step.lean ====
section
/-! SUPPORT. What an instruction and a step can do, once: the frame of `exec`, and the cases of `step`. -/

namespace Sys2Proof.Machine

/-- Where a string routine leaves the machine: after some reads and some bytes, at the zero word or at a failed write. -/
theorem stringLoop_cases (f : Word → List Byte) (fuel : Nat) (a : Word) (s t : State) (k : Nat) (bs : List Byte)
    (h : stringLoop f fuel (a + BitVec.ofNat 16 k) (accepted (readRun a s k) bs) = some t) :
    ∃ n cs, t = accepted (readRun a s n) cs ∨ t = failedAfter (readRun a s n) cs := by
  induction fuel generalizing k bs with
  | zero => simp [stringLoop] at h
  | succ fuel ih =>
    rw [stringLoop] at h
    have hr : (memRead (accepted (readRun a s k) bs) (a + BitVec.ofNat 16 k)).2 = accepted (readRun a s (k + 1)) bs := by
      rw [memRead_accepted]; rfl
    simp only [hr, ofNat_succ_add] at h
    split at h
    · exact ⟨k + 1, bs, .inl (by simpa using h.symm)⟩
    · rcases emitAll_cases (f (memRead (accepted (readRun a s k) bs) (a + BitVec.ofNat 16 k)).1)
        (accepted (readRun a s (k + 1)) bs) with he | ⟨n, -, he⟩
      · simp only [he, accepted_append] at h
        exact ih _ _ h
      · simp only [he, failedAfter_accepted] at h
        exact ⟨k + 1, _, .inr (by simpa using h.symm)⟩

theorem serviceString_cases (f : Word → List Byte) (s t : State) (h : serviceString f s = .next t) :
    ∃ n cs, t = accepted (readRun (s.reg 0#3) s n) cs ∨ t = failedAfter (readRun (s.reg 0#3) s n) cs := by
  unfold serviceString at h
  split at h
  · rename_i u hu
    injection h with h
    subst h
    exact stringLoop_cases f _ (s.reg 0#3) s u 0 [] (by simpa [readRun, accepted_nil] using hu)
  · simp at h

/-- What the core can do to the control flags and the output while it emits: nothing, or a sink failure. -/
theorem emitAll_thenDo_cases (bs : List Byte) (s : State) (k : State → State) :
    (emitAll bs s).thenDo k = k (accepted s bs) ∨
      ∃ n < bs.length, (emitAll bs s).thenDo k = failedAfter s (bs.take n) := by
  rcases emitAll_cases bs s with h | ⟨n, hn, h⟩
  · left; rw [h]; rfl
  · right; exact ⟨n, hn, by rw [h]; rfl⟩

theorem emit_thenDo_cases (b : Byte) (s : State) (k : State → State) :
    (emit b s).thenDo k = k (accepted s [b]) ∨ (emit b s).thenDo k = failedAfter s [] := by
  rcases emit_cases b s with ⟨-, h⟩ | ⟨-, h⟩
  · left; rw [h]; rfl
  · right; rw [h]; rfl

/-- The forms a next state of an instruction takes. -/
inductive Effect (i : Instr) (s : State) : State → Prop where
  | operate (r : Reg) (v : Word)
      (hi : (∃ a b, i = .add r a b) ∨ (∃ a b, i = .addi r a b) ∨ (∃ a b, i = .and r a b) ∨ (∃ a b, i = .andi r a b) ∨
        (∃ a, i = .not r a) ∨ ∃ o, i = .lea r o) : Effect i s (s.setRegFlags r v)
  | load (r : Reg) (ea : Word) (hi : (∃ o, i = .ld r o) ∨ ∃ b o, i = .ldr r b o) : Effect i s (loadFrom r ea s)
  | loadIndirect (r : Reg) (a p : Word) (hi : ∃ o, i = .ldi r o) : Effect i s (loadFrom r p (memRead s a).2)
  | store (ea v : Word) (hi : (∃ r o, i = .st r o) ∨ ∃ r b o, i = .str r b o) : Effect i s (memWrite s ea v)
  | storeIndirect (a p v : Word) (hi : ∃ r o, i = .sti r o) : Effect i s (memWrite (memRead s a).2 p v)
  | jump (p : Word) (hi : (∃ n o, i = .br n o) ∨ (∃ b, i = .jmp b) ∨ i = .ret) : Effect i s (s.setPc p)
  | call (p : Word) (hi : (∃ o, i = .jsr o) ∨ ∃ b, i = .jsrr b) : Effect i s ((link s).setPc p)
  | nothing : Effect i s s
  | waitForKey : Effect i s (serviceGetc s)
  | output (bs : List Byte) : Effect i s (accepted s bs)
  | outputFails (bs : List Byte) : Effect i s (failedAfter s bs)
  | outputThenHalt (bs : List Byte) : Effect i s (clearRunning .halt (accepted s bs))
  | outputThenWait (bs : List Byte) : Effect i s { accepted s bs with phase := .waitKey .input }
  | string (n : Nat) (bs : List Byte) : Effect i s (accepted (readRun (s.reg 0#3) s n) bs)
  | stringFails (n : Nat) (bs : List Byte) : Effect i s (failedAfter (readRun (s.reg 0#3) s n) bs)

theorem effect_out (i : Instr) (s : State) : Effect i s (serviceOut s) := by
  rcases emit_thenDo_cases (lowByte (s.reg 0#3)) s id with h | h <;> rw [serviceOut, h]
  · exact .output _
  · exact .outputFails _

theorem effect_halt (i : Instr) (s : State) : Effect i s (serviceHalt s) := by
  rcases emitAll_thenDo_cases haltText s (clearRunning .halt) with h | ⟨n, -, h⟩ <;> rw [serviceHalt, h]
  · exact .outputThenHalt _
  · exact .outputFails _

theorem effect_in (i : Instr) (s : State) : Effect i s (serviceIn s) := by
  rcases emitAll_thenDo_cases promptText s (fun t => { t with phase := .waitKey .input }) with h | ⟨n, -, h⟩ <;>
    rw [serviceIn, h]
  · exact .outputThenWait _
  · exact .outputFails _

theorem effect_string (i : Instr) (f : Word → List Byte) (s t : State) (h : serviceString f s = .next t) :
    Effect i s t := by
  obtain ⟨n, bs, rfl | rfl⟩ := serviceString_cases f s t h
  · exact .string n bs
  · exact .stringFails n bs

/-- The whole of what `exec` can do when it answers a next state. -/
theorem exec_effect (i : Instr) (s t : State) (h : exec i s = .next t) : Effect i s t := by
  have e : ∀ {u : State}, (Host.Outcome.next u : Host.Outcome State Fault Refusal) = .next t → Effect i s u →
      Effect i s t := by
    intro u hu hc; injection hu with hu; exact hu ▸ hc
  cases i with
  | add a b c => exact e h (.operate a _ (.inl ⟨b, c, rfl⟩))
  | addi a b c => exact e h (.operate a _ (.inr (.inl ⟨b, c, rfl⟩)))
  | and a b c => exact e h (.operate a _ (.inr (.inr (.inl ⟨b, c, rfl⟩))))
  | andi a b c => exact e h (.operate a _ (.inr (.inr (.inr (.inl ⟨b, c, rfl⟩)))))
  | not a b => exact e h (.operate a _ (.inr (.inr (.inr (.inr (.inl ⟨b, rfl⟩))))))
  | lea a o => exact e h (.operate a _ (.inr (.inr (.inr (.inr (.inr ⟨o, rfl⟩))))))
  | ld r o => exact e h (.load r _ (.inl ⟨o, rfl⟩))
  | ldr r b o => exact e h (.load r _ (.inr ⟨b, o, rfl⟩))
  | ldi r o => exact e h (.loadIndirect r _ _ ⟨o, rfl⟩)
  | st r o => exact e h (.store _ _ (.inl ⟨r, o, rfl⟩))
  | str r b o => exact e h (.store _ _ (.inr ⟨r, b, o, rfl⟩))
  | sti r o => exact e h (.storeIndirect _ _ _ ⟨r, o, rfl⟩)
  | br n o =>
    refine e h ?_
    split
    · exact .jump _ (.inl ⟨n, o, rfl⟩)
    · exact .nothing
  | jmp b => exact e h (.jump _ (.inr (.inl ⟨b, rfl⟩)))
  | ret => exact e h (.jump _ (.inr (.inr rfl)))
  | jsr o => exact e h (.call _ (.inl ⟨o, rfl⟩))
  | jsrr b => exact e h (.call _ (.inr ⟨b, rfl⟩))
  | rti => exact e h .nothing
  | res => exact e h .nothing
  | trapGetc => exact e h .waitForKey
  | trapOut => exact e h (effect_out _ s)
  | trapHalt => exact e h (effect_halt _ s)
  | trapIn => exact e h (effect_in _ s)
  | trapPuts => exact effect_string _ _ s t h
  | trapPutsp => exact effect_string _ _ s t h
  | trap v =>
    simp only [exec, execTrap] at h
    split at h
    · exact e h .waitForKey
    split at h
    · exact e h (effect_out _ s)
    split at h
    · exact effect_string _ _ s t h
    split at h
    · exact e h (effect_in _ s)
    split at h
    · exact effect_string _ _ s t h
    split at h
    · exact e h (effect_halt _ s)
    · exact e h .nothing

/-- The cases of a step, by whose turn it is and the phase. -/
theorem step_cases (s t : State) (h : step s = .next t) :
    (turnOf s = .core ∧ s.phase = .boundary ∧ s.running = true ∧ fetchExecute (keyboardService (takeTurn s)) = .next t) ∨
    (turnOf s = .core ∧ s.phase = .boundary ∧ s.running = false ∧ t = { takeTurn s with phase := .exited }) ∨
    (∃ r, turnOf s = .core ∧ s.phase = .waitKey r ∧ t = waitStep r (takeTurn s)) ∨
    (turnOf s = .core ∧ s.phase = .exited ∧ t = takeTurn s) ∨
    (turnOf s = .cancel ∧ t = cancelWait (takeTurn s)) ∨
    (turnOf s = .keyboard ∧ t = keyAgentStep (takeTurn s)) ∨
    (turnOf s = .stop ∧ t = stopRequest (takeTurn s)) := by
  have e : ∀ {u : State}, (Host.Outcome.next u : Host.Outcome State Fault Refusal) = .next t → t = u := by
    intro u hu; injection hu with hu; exact hu.symm
  have hp : (takeTurn s).phase = s.phase := rfl
  unfold step machineStep at h
  cases ht : turnOf s <;> rw [ht] at h
  · simp only [agentStep, coreStep, hp] at h
    cases hph : s.phase <;> rw [hph] at h
    · simp only [iterate] at h
      split at h
      · rename_i hr
        exact .inl ⟨rfl, rfl, hr, h⟩
      · rename_i hr
        exact .inr (.inl ⟨rfl, rfl, Bool.eq_false_iff.mpr hr, e h⟩)
    · exact .inr (.inr (.inl ⟨_, rfl, rfl, e h⟩))
    · exact .inr (.inr (.inr (.inl ⟨rfl, rfl, e h⟩)))
  · exact .inr (.inr (.inr (.inr (.inl ⟨rfl, e h⟩))))
  · exact .inr (.inr (.inr (.inr (.inr (.inl ⟨rfl, e h⟩)))))
  · exact .inr (.inr (.inr (.inr (.inr (.inr ⟨rfl, e h⟩)))))

/-- Keyboard servicing: nothing, or the byte of the key buffer staged while READY is clear. -/
theorem keyboardService_cases (s : State) :
    keyboardService s = s ∨ ∃ b, s.keyBuf = some b ∧ s.ready = false ∧ keyboardService s = stageByte b s := by
  unfold keyboardService
  split
  · rename_i b hb
    split
    · exact .inl rfl
    · rename_i hr
      exact .inr ⟨b, hb, Bool.eq_false_iff.mpr hr, rfl⟩
  · exact .inl rfl

/-- The keyboard agent's step: nothing, or the next input byte into an empty key buffer, which after a stop needs a wait
that may go on. -/
theorem keyAgentStep_cases (s : State) :
    keyAgentStep s = s ∨ ∃ b rest, s.keyBuf = none ∧ s.kbdIn = b :: rest ∧
      (s.stopRequested = false ∨ waitsForKey s = true) ∧ keyAgentStep s = { s with keyBuf := some b, kbdIn := rest } := by
  unfold keyAgentStep
  split
  · exact .inl rfl
  · rename_i hs
    split
    · rename_i b rest hb hk
      exact .inr ⟨b, rest, hb, hk, by cases h : s.stopRequested <;> simp_all, rfl⟩
    · exact .inl rfl

/-- Where it is enabled it puts the byte. -/
theorem keyAgentStep_puts (s : State) (b : Byte) (rest : List Byte) (hb : s.keyBuf = none) (hk : s.kbdIn = b :: rest)
    (hs : s.stopRequested = false ∨ waitsForKey s = true) :
    keyAgentStep s = { s with keyBuf := some b, kbdIn := rest } := by
  rcases hs with hs | hs <;> simp [keyAgentStep, hs, hb, hk]

theorem waitsForKey_iff (s : State) :
    waitsForKey s = true ↔ (∃ r, s.phase = .waitKey r) ∧ s.params.stopCancelsWait ≠ some true := by
  cases h : s.phase <;> simp [waitsForKey, h]

/-- Staging changes only the key buffer and memory. -/
theorem stageByte_frame (b : Byte) (s : State) :
    stageByte b s = { s with keyBuf := none, mem := (stageByte b s).mem } := rfl

theorem stageByte_memAt (b : Byte) (s : State) (a : Word) :
    (stageByte b s).memAt a =
      if a = 0xFE02#16 then zext8 b else if a = 0xFE00#16 then s.memAt 0xFE00#16 ||| 0x8000#16 else s.memAt a := by
  simp only [stageByte, devSet, State.memAt_setMem]
  rfl

theorem stageByte_wf (b : Byte) (s : State) (h : s.mem.wf = true) : (stageByte b s).mem.wf = true :=
  Memory.wf_write _ _ _ (Memory.wf_write _ _ _ h)

end Sys2Proof.Machine
end

