-- ==== Sys2Proof/Tests/Slice0.lean ====
section
/-! SUPPORT. Tests. Expected values come from 95_test_vectors (the vector's name is in the comment) or from a rule's
own example; the witnesses meet the hypotheses of the statements. -/

namespace Sys2Proof.Tests

open Sys2Proof Sys2Proof.Machine

/-! ## WellFormed: an ill-formed term for each check -/

theorem test_wf_refuses_jmp_r7 : (Instr.jmp 7#3).wellFormed = false ∧ (Instr.jmp 6#3).wellFormed = true := by decide

theorem test_wf_refuses_service_vectors :
    (Instr.trap 0x20#8).wellFormed = false ∧ (Instr.trap 0x25#8).wellFormed = false ∧
    (Instr.trap 0x1F#8).wellFormed = true ∧ (Instr.trap 0x26#8).wellFormed = true := by decide

/-! ## Decoding: words written out bit by bit from 30_encoding R85 -/

theorem test_decode_control :
    decode 0b0000_101_000000011#16 = .br 0b101#3 3#9 ∧
    decode 0b0100_1_11111111111#16 = .jsr 0x7FF#11 ∧
    decode 0b0100_0_11_010_111111#16 = .jsrr 2#3 ∧
    decode 0b1100_101_011_110011#16 = .jmp 3#3 ∧
    decode 0b1100_010_111_000001#16 = .ret := by decide

theorem test_decode_operate :
    decode 0b0001_011_100_0_11_101#16 = .add 3#3 4#3 5#3 ∧
    decode 0b0001_011_100_1_10000#16 = .addi 3#3 4#3 0x10#5 ∧
    decode 0b0101_001_010_0_00_011#16 = .and 1#3 2#3 3#3 ∧
    decode 0b0101_001_010_1_01111#16 = .andi 1#3 2#3 15#5 ∧
    decode 0b1001_110_001_000010#16 = .not 6#3 1#3 := by decide

theorem test_decode_data_movement :
    decode 0b0010_010_100000000#16 = .ld 2#3 0x100#9 ∧
    decode 0b0011_011_111111111#16 = .st 3#3 0x1FF#9 ∧
    decode 0b0110_001_010_100000#16 = .ldr 1#3 2#3 0x20#6 ∧
    decode 0b0111_101_110_011111#16 = .str 5#3 6#3 0x1F#6 ∧
    decode 0b1010_100_000000001#16 = .ldi 4#3 1#9 ∧
    decode 0b1011_111_000000010#16 = .sti 7#3 2#9 ∧
    decode 0b1110_001_000000111#16 = .lea 1#3 7#9 := by decide

theorem test_decode_trap :
    decode 0b1111_0000_00100000#16 = .trapGetc ∧ decode 0b1111_1111_00100001#16 = .trapOut ∧
    decode 0b1111_0000_00100010#16 = .trapPuts ∧ decode 0b1111_0000_00100011#16 = .trapIn ∧
    decode 0b1111_0000_00100100#16 = .trapPutsp ∧ decode 0b1111_1111_00100101#16 = .trapHalt ∧
    decode 0b1111_0000_00011111#16 = .trap 0x1F#8 ∧ decode 0b1111_0000_00100110#16 = .trap 0x26#8 := by decide

theorem test_decode_unimplemented :
    decode 0b1000_111111111111#16 = .rti ∧ decode 0b1101_000100100011#16 = .res := by decide

theorem test_decode_bytes :
    decodeBytes [0xF0#8, 0x25#8, 0x12#8] = .ok (.trapHalt, [0x12#8]) ∧ decodeBytes [0x12#8] = .error .truncated := by
  constructor <;> rfl

theorem test_encode :
    encode (.add 0#3 1#3 2#3) = 0x1042#16 ∧ encode (.addi 0#3 0#3 5#5) = 0x1025#16 ∧ encode (.jsr 2#11) = 0x4802#16 ∧
    encode (.str 2#3 1#3 0#6) = 0x7440#16 ∧ encode (.br 1#3 0x1FE#9) = 0x03FE#16 ∧ encode .ret = 0xC1C0#16 := by decide

/-- 95_test_vectors 1.2, with 90_conflicts C2's value of SEXT(0x200, 11). -/
theorem test_sext :
    sext 5 0x1F#16 = 0xFFFF#16 ∧ sext 5 0x0F#16 = 0x000F#16 ∧ sext 5 0x3F#16 = 0xFFFF#16 ∧
    sext 6 0x20#16 = 0xFFE0#16 ∧ sext 9 0x100#16 = 0xFF00#16 ∧ sext 9 0x0FF#16 = 0x00FF#16 ∧
    sext 11 0x200#16 = 0x0200#16 ∧ sext 11 0x600#16 = 0xFE00#16 ∧ zext8 0xFF#8 = 0x00FF#16 := by decide

/-! ## One step on a small state -/

/-- What `f` gives of the state one step after the word w was placed at the fetch. -/
def after {α : Type} (w : Nat) (s : State) (f : State → α) : Option α :=
  match step (s.withFetchWord 16 w) with
  | .next t => some (f t)
  | _ => none

/-- What `f` gives of the state one step on. -/
def stepped {α : Type} (s : State) (f : State → α) : Option α :=
  match step s with
  | .next t => some (f t)
  | _ => none

def r0 (v : Word) : State := State.reset.setReg 0#3 v
def r1 (v : Word) : State := State.reset.setReg 1#3 v

/-- KBSR = 0x8000 and KBDR = b: a staged byte. -/
def staged (b : Word) : State := (State.reset.setMem kbsrAddr 0x8000#16).setMem kbdrAddr b

/-- Vectors O1, O6, O7. -/
theorem test_add_wraps :
    after 0x1042 ((r1 0x7FFF#16).setReg 2#3 1#16) (fun t => (t.reg 0#3, t.cc)) = some (0x8000#16, ccNeg) ∧
    after 0x1041 (r1 0x8000#16) (fun t => (t.reg 0#3, t.cc)) = some (0#16, ccZro) ∧
    after 0x16C3 (State.reset.setReg 3#3 2#16) (fun t => (t.reg 3#3, t.cc, t.pc)) = some (4#16, ccPos, 0x3001#16) := by
  decide

/-- Vectors O2, O4, O5. -/
theorem test_addi :
    after 0x107B (r1 5#16) (fun t => (t.reg 0#3, t.cc)) = some (0#16, ccZro) ∧
    after 0x1070 State.reset (fun t => (t.reg 0#3, t.cc)) = some (0xFFF0#16, ccNeg) ∧
    after 0x1261 (r1 0xFFFF#16) (fun t => (t.reg 1#3, t.cc)) = some (0#16, ccZro) := by decide

/-- Vectors O9, O12, O13. -/
theorem test_and :
    after 0x5042 ((r1 0xF0F0#16).setReg 2#3 0x0FF0#16) (fun t => (t.reg 0#3, t.cc)) = some (0x00F0#16, ccPos) ∧
    after 0x5070 (r1 0x1234#16) (fun t => (t.reg 0#3, t.cc)) = some (0x1230#16, ccPos) ∧
    after 0x506F (r1 0x1234#16) (fun t => (t.reg 0#3, t.cc)) = some (4#16, ccPos) := by decide

/-- Vectors O16, O18. -/
theorem test_not :
    after 0x907F (r1 0x8000#16) (fun t => (t.reg 0#3, t.cc)) = some (0x7FFF#16, ccPos) ∧
    after 0x9040 ((r1 0x5555#16).setReg 0#3 0x1111#16) (fun t => (t.reg 0#3, t.cc)) = some (0xAAAA#16, ccNeg) := by decide

/-- Vectors B3, B5, B6, B12. -/
theorem test_br :
    after 0x0FFF State.reset State.pc = some 0x3000#16 ∧
    after 0x0405 { State.reset with cc := ccPos } State.pc = some 0x3001#16 ∧
    after 0x0900 { State.reset with cc := ccNeg } State.pc = some 0x2F01#16 ∧
    after 0x0E02 (State.reset.setPc 0xFFFE#16) State.pc = some 0x0001#16 := by decide

/-- Vectors B15, B17, B18. -/
theorem test_jsr_jsrr :
    after 0x4C00 State.reset (fun t => (t.reg 7#3, t.pc)) = some (0x3001#16, 0x2C01#16) ∧
    after 0x4080 (State.reset.setReg 2#3 0x4000#16) (fun t => (t.reg 7#3, t.pc)) = some (0x3001#16, 0x4000#16) ∧
    after 0x41C0 (State.reset.setReg 7#3 0x5000#16) (fun t => (t.reg 7#3, t.pc)) = some (0x3001#16, 0x3001#16) := by
  decide

/-- Vectors B19, B20. -/
theorem test_jmp_ret :
    after 0xC0C0 (State.reset.setReg 3#3 0x1234#16) State.pc = some 0x1234#16 ∧
    after 0xC1C0 (State.reset.setReg 7#3 0x3050#16) State.pc = some 0x3050#16 := by decide

/-- Vectors D1, D2. -/
theorem test_ld :
    after 0x2402 (State.reset.setMem 0x3003#16 0x8000#16) (fun t => (t.reg 2#3, t.cc)) = some (0x8000#16, ccNeg) ∧
    after 0x2300 (State.reset.setMem 0x2F01#16 7#16) (fun t => (t.reg 1#3, t.cc)) = some (7#16, ccPos) := by decide

/-- Vectors D4, D5, D8. -/
theorem test_ldr :
    after 0x6042 ((staged 0x41#16).setReg 1#3 0xFE00#16) (fun t => (t.reg 0#3, t.cc, t.kbsr)) =
      some (0x41#16, ccPos, 0#16) ∧
    after 0x6040 ((staged 0x41#16).setReg 1#3 0xFE00#16) (fun t => (t.reg 0#3, t.cc, t.kbsr)) =
      some (0x8000#16, ccNeg, 0x8000#16) ∧
    after 0x6041 ((State.reset.setMem 0#16 0x42#16).setReg 1#3 0xFFFF#16) (fun t => t.reg 0#3) = some 0x42#16 := by
  decide

/-- Vectors D9, D11, D12, D13. -/
theorem test_st_str :
    after 0x37FF (State.reset.setReg 3#3 0xF025#16) (fun t => t.memAt 0x3000#16) = some 0xF025#16 ∧
    after 0x7040 ((r1 0xFE00#16).setReg 0#3 0xFFFF#16) State.kbsr = some 0#16 ∧
    after 0x7042 (((staged 0x41#16).setReg 1#3 0xFE00#16).setReg 0#3 0x55#16) (fun t => (t.kbsr, t.kbdr)) =
      some (0x8000#16, 0x41#16) ∧
    after 0x7041 ((r1 0xFE00#16).setReg 0#3 0x55#16) (fun t => t.memAt 0xFE01#16) = some 0x55#16 := by decide

/-- Vectors D17, D18, and the pointer word at KBDR (42_data_movement R165). -/
theorem test_ldi :
    after 0xA000 ((staged 0x5A#16).setMem 0x3001#16 0xFE02#16) (fun t => (t.reg 0#3, t.cc, t.kbsr)) =
      some (0x5A#16, ccPos, 0#16) ∧
    after 0xA000 ((State.reset.setMem kbdrAddr 0x41#16).setMem 0x3001#16 0xFE02#16) (fun t => (t.reg 0#3, t.kbsr)) =
      some (0x41#16, 0#16) ∧
    after 0xA001 (((staged 0x5A#16).setMem 0x5A#16 9#16).setPc 0xFE00#16)
      (fun t => (t.reg 0#3, t.kbsr)) = some (9#16, 0x2001#16) := by decide

/-- Vectors D15, D16. -/
theorem test_sti :
    after 0xB000 ((r0 0x1234#16).setMem 0x3001#16 0x4000#16) (fun t => t.memAt 0x4000#16) = some 0x1234#16 ∧
    after 0xB000 (((staged 0x5A#16).setReg 0#3 0x1234#16).setMem 0x3001#16 0xFE02#16) (fun t => (t.kbsr, t.kbdr)) =
      some (0x8000#16, 0x5A#16) := by decide

/-- Vectors D20, D22. -/
theorem test_lea :
    after 0xEBFF { State.reset with cc := ccNeg } (fun t => (t.reg 5#3, t.cc)) = some (0x3000#16, ccPos) ∧
    after 0xE000 (State.reset.setPc 0xFFFF#16) (fun t => (t.reg 0#3, t.cc, t.pc)) = some (0#16, ccZro, 0#16) := by decide

/-- Vectors U2, U4, T18, T21. -/
theorem test_no_ops :
    after 0x8FFF (r0 5#16) (fun t => (t.regs, t.pc, t.cc)) = some ((r0 5#16).regs, 0x3001#16, ccZro) ∧
    after 0xD123 (r0 5#16) (fun t => (t.regs, t.pc, t.cc)) = some ((r0 5#16).regs, 0x3001#16, ccZro) ∧
    after 0xF026 (r0 5#16) (fun t => (t.regs, t.pc, t.out)) = some ((r0 5#16).regs, 0x3001#16, []) ∧
    after 0xF0FF (r0 5#16) (fun t => (t.regs, t.pc, t.out)) = some ((r0 5#16).regs, 0x3001#16, []) := by decide

/-- Vectors T1, T22. -/
theorem test_out :
    after 0xF021 ((r0 0x1241#16).setReg 7#3 0x2222#16) (fun t => (t.out, t.reg 7#3, t.pc)) =
      some ([0x41#8], 0x2222#16, 0x3001#16) := by decide

/-- Memory with a string of three words at a. -/
def withString (a x y z : Word) : State :=
  (((r0 a).setMem a x).setMem (a + 1#16) y).setMem (a + 2#16) z

/-- Vectors T3, T5, T7. -/
theorem test_puts :
    after 0xF022 (withString 0x4000#16 0x0148#16 0x0069#16 0#16) (fun t => (t.out, t.reg 0#3)) =
      some ([0x48#8, 0x69#8], 0x4000#16) ∧
    after 0xF022 (withString 0x4000#16 0x0100#16 0x0041#16 0#16) State.out = some [0x00#8, 0x41#8] ∧
    after 0xF022 (withString 0xFFFF#16 0x0041#16 0x0042#16 0#16) State.out = some [0x41#8, 0x42#8] := by decide

/-- Vector T6: a string over KBDR clears READY. -/
theorem test_puts_over_kbdr :
    after 0xF022 (((staged 0x42#16).setReg 0#3 0xFE01#16).setMem 0xFE01#16 0x41#16) (fun t => (t.out, t.kbsr)) =
      some ([0x41#8, 0x42#8], 0#16) := by decide

/-- Vectors T8, T9. -/
theorem test_putsp :
    after 0xF024 (withString 0x4000#16 0x6548#16 0x006C#16 0#16) State.out = some [0x48#8, 0x65#8, 0x6C#8] ∧
    after 0xF024 (withString 0x4000#16 0x4100#16 0#16 0#16) State.out = some [0x00#8, 0x41#8] := by decide

/-- Vectors T10, T14. -/
theorem test_getc_first_phase :
    after 0xF020 State.reset (fun t => (t.phase, t.pc)) = some (.waitKey .getc, 0x3001#16) ∧
    after 0xF020 { State.reset with keyBuf := some 0x41#8 } (fun t => (t.phase, t.kbsr, t.kbdr, t.keyBuf)) =
      some (.waitKey .getc, 0x8000#16, 0x41#16, none) := by decide

/-- A core in a key wait, with a byte in the key buffer. -/
def waiting (r : WaitRoutine) (b : Byte) : State := { State.reset with phase := .waitKey r, keyBuf := some b }

/-- Vectors T11, T13. -/
theorem test_getc_second_phase :
    stepped { waiting .getc 0x7A#8 with cc := ccNeg } (fun t => (t.reg 0#3, t.cc, t.keyBuf, t.phase)) =
      some (0x7A#16, ccPos, none, .boundary) ∧
    stepped (waiting .getc 0xFF#8) (fun t => (t.reg 0#3, t.cc)) = some (0xFF#16, ccPos) := by decide

/-- Vectors T15, T16, T25. -/
theorem test_in :
    after 0xF023 State.reset (fun t => (t.out.length, t.out.getLast?, t.phase)) =
      some (19, some 0x20#8, .waitKey .input) ∧
    stepped (waiting .input 0x71#8) (fun t => (t.out, t.reg 0#3, t.cc, t.phase)) =
      some ([0x71#8], 0x71#16, ccPos, .boundary) ∧
    stepped { waiting .input 0x71#8 with sinkAnswers := [.error] }
      (fun t => (t.keyBuf, t.reg 0#3, t.cc, t.sinkError, t.phase)) = some (none, 0#16, ccZro, true, .exited) := by decide

/-- Vectors T17, T20, T23. -/
theorem test_halt :
    after 0xF025 (State.reset.setReg 7#3 0x1111#16) (fun t => (t.out, t.running, t.reg 7#3, t.pc)) =
      some ([0x48#8, 0x41#8, 0x4C#8, 0x54#8, 0x0A#8], false, 0x1111#16, 0x3001#16) ∧
    after 0xFF25 State.reset State.running = some false ∧
    after 0xF025 { State.reset with sinkAnswers := [.ok, .ok, .error] }
      (fun t => (t.out, t.sinkError, t.running, t.phase)) = some ([0x48#8, 0x41#8], true, false, .exited) := by decide

/-- The same answers with P_SINK_MAY_FAIL false: every Emit succeeds (92_eei_decisions D9). -/
theorem test_sink_cannot_fail :
    after 0xF025 { State.reset with
        sinkAnswers := [.ok, .ok, .error], params := { sinkMayFail := false, stopCancelsWait := none } }
      (fun t => (t.out.length, t.sinkError)) = some (5, false) := by decide

/-- Vector T24. -/
theorem test_puts_sink_fails :
    after 0xF022 { withString 0x4000#16 0x48#16 0x69#16 0#16 with sinkAnswers := [.error] }
      (fun t => (t.out, t.sinkError, t.phase)) = some ([], true, .exited) := by decide

/-- The fault of the model: with KBSR bits 14:0 not zero and no zero word, PUTS would never end; here the loop's first
two words go on. -/
theorem test_string_goes_on :
    stringLoop putsBytes 2 0x4000#16 (withString 0x4000#16 1#16 2#16 3#16) = none := by decide

/-! ## The loop and the agents -/

/-- Vectors K1, K2, K4. -/
theorem test_keyboard_service :
    (keyboardService { State.reset with keyBuf := some 0x78#8 }).memAt kbsrAddr = 0x8000#16 ∧
    (keyboardService { State.reset with keyBuf := some 0x78#8 }).memAt kbdrAddr = 0x78#16 ∧
    (keyboardService { staged 0x78#16 with keyBuf := some 0x79#8 }).keyBuf = some 0x79#8 ∧
    (keyboardService { State.reset.setMem kbdrAddr 0x78#16 with keyBuf := some 0xC3#8 }).memAt kbdrAddr = 0xC3#16 := by
  decide

/-- Vector M8: a fetch from KBDR clears READY, and the byte executes as BR with nzp 000. -/
theorem test_fetch_at_kbdr :
    stepped ((staged 0x41#16).setPc kbdrAddr) (fun t => (t.kbsr, t.pc)) = some (0#16, 0xFE03#16) := by decide

/-- Vectors S2, S3: a stopped wait, with P_STOP_CANCELS_WAIT true and false. -/
theorem test_stopped_wait :
    stepped { waiting .getc 0x42#8 with running := false, params := { sinkMayFail := true, stopCancelsWait := some true } }
      (fun t => (t.phase, t.reg 0#3, t.keyBuf)) = some (.exited, 0#16, some 0x42#8) ∧
    stepped { waiting .getc 0x42#8 with running := false, params := { sinkMayFail := true, stopCancelsWait := some false } }
      (fun t => (t.phase, t.reg 0#3, t.cc)) = some (.boundary, 0x42#16, ccPos) := by decide

/-- Vectors S2, S3: after the stop the byte `B` reaches the wait of a core that waits on, and not that of one that
cancels. -/
theorem test_byte_after_stop :
    stepped { State.reset with
        phase := .waitKey .getc, running := false, stopRequested := true, kbdIn := [0x42#8]
        params := { sinkMayFail := true, stopCancelsWait := some false } } State.keyBuf = some (some 0x42#8) ∧
    stepped { State.reset with
        phase := .waitKey .getc, running := false, stopRequested := true, kbdIn := [0x42#8], schedule := [.keyboard]
        params := { sinkMayFail := true, stopCancelsWait := some true } } State.keyBuf = some none := by decide

/-- Vectors S1, S4: a stop between iterations, and one after HALT. -/
theorem test_stop :
    stepped { State.reset with schedule := [.stop] } (fun t => (t.running, t.cause)) = some (false, some .stopRequest) ∧
    stepped { State.reset with running := false } (fun t => (t.phase, t.pc)) = some (.exited, 0x3000#16) ∧
    stepped { State.reset with running := false, cause := some .halt, schedule := [.stop] }
      (fun t => (t.running, t.cause)) = some (false, some .halt) := by decide

/-- 60_exceptions R242: the agent puts a byte into an empty buffer only, and none after a stop. -/
theorem test_keyboard_agent :
    stepped { State.reset with schedule := [.keyboard], kbdIn := [1#8, 2#8] } (fun t => (t.keyBuf, t.kbdIn)) =
      some (some 1#8, [2#8]) ∧
    stepped { State.reset with schedule := [.keyboard], kbdIn := [1#8], keyBuf := some 0#8 } State.kbdIn = some [1#8] ∧
    stepped { State.reset with schedule := [.keyboard], kbdIn := [1#8], stopRequested := true } State.keyBuf =
      some none := by decide

/-- A host side with nothing to give. -/
def quietHost : HostInputs :=
  { params := State.reset.params, gprReset := .zero, gprDraw := Vector.replicate 8 0xBEEF#16, kbdIn := [],
    sinkAnswers := [], schedule := [] }

/-- Vectors L1, L3, L4, L5: what a load leaves at an address. -/
theorem test_loader :
    loadImage [0x30#8, 0x00#8, 0xF0#8] [] = .error .fileTooShort ∧
    loadImage [0x30#8, 0x00#8, 0xF0#8, 0x25#8, 0x12#8] [] = .ok [(0x3000, 0xF025#16)] ∧
    loadImage [0xFD#8, 0xFF#8, 0x11#8, 0x11#8, 0x22#8, 0x22#8] [] = .ok [(0xFDFF, 0x1111#16)] ∧
    loadImage [0xFE#8, 0x00#8, 0x11#8, 0x11#8] [] = .ok [] := by
  refine ⟨?_, ?_, ?_, ?_⟩ <;> rfl

/-- Vector L7: PC is 0x3000 whatever the origin. -/
theorem test_start :
    (State.start [0x40#8, 0x00#8, 0xF0#8, 0x25#8] quietHost).map (fun s => (s.pc, s.memAt 0x4000#16)) =
      .ok (0x3000#16, 0xF025#16) := by rfl

/-! ## Witnesses: the hypotheses of each statement, met together, clause by clause -/

theorem witness_DecodeEncodeRoundTrip :
    (Instr.jmp 6#3).wellFormed = true ∧ (Instr.trap 0x1F#8).wellFormed = true ∧ (Instr.trap 0x26#8).wellFormed = true ∧
    (Instr.br 7#3 0x1FF#9).wellFormed = true := by decide

theorem witness_IgnoredBitsSelectNothing :
    ((0x1042#16).extractLsb' 12 4 = 0b0001#4 ∧ (0x1042#16).getLsbD 5 = false) ∧
    ((0x5042#16).extractLsb' 12 4 = 0b0101#4 ∧ (0x5042#16).getLsbD 5 = false) ∧
    ((0x4080#16).extractLsb' 12 4 = 0b0100#4 ∧ (0x4080#16).getLsbD 11 = false) ∧
    (0x903F#16).extractLsb' 12 4 = 0b1001#4 ∧ (0xC1C0#16).extractLsb' 12 4 = 0b1100#4 ∧
    (0xFF25#16).extractLsb' 12 4 = 0b1111#4 ∧ (0x8FFF#16).extractLsb' 12 4 = 0b1000#4 ∧
    (0xD123#16).extractLsb' 12 4 = 0b1101#4 := by decide

theorem witness_EveryWordHasOneReading :
    (Instr.not 0#3 0#3).wellFormed = true ∧ encode (.not 0#3 0#3) = 0x903F#16 &&& ~~~ (ignoredBits 0x903F#16) := by decide

theorem witness_ExtensionFormulas : (0 < 1 ∧ 1 ≤ 16) ∧ (0 < 16 ∧ 16 ≤ 16) ∧ 0 ≤ 16 := by decide

/-- MemRead and MemWrite: at KBDR, at KBSR, and beside them. -/
theorem witness_MemReadClearsReadyAtKbdr_MemWriteStoresOrDrops :
    kbdrAddr = 0xFE02#16 ∧ kbsrAddr = 0xFE00#16 ∧ (0xFE01#16 ≠ 0xFE00#16 ∧ 0xFE01#16 ≠ 0xFE02#16) := by decide

theorem witness_CanonicalMemoryIsUnique :
    Memory.wf [(0, 1#16), (0xFFFF, 2#16)] = true ∧
    ∀ a, Memory.read [(0, 1#16), (0xFFFF, 2#16)] a = Memory.read [(0, 1#16), (0xFFFF, 2#16)] a :=
  ⟨by decide, fun _ => rfl⟩

/-- A word for the encoding clause of each instruction statement. -/
theorem witness_encoding_clauses :
    ((0x1042#16).extractLsb' 12 4 = 0b0001#4 ∧ (0x1042#16).getLsbD 5 = false) ∧
    ((0x1025#16).extractLsb' 12 4 = 0b0001#4 ∧ (0x1025#16).getLsbD 5 = true) ∧
    ((0x5042#16).extractLsb' 12 4 = 0b0101#4 ∧ (0x5042#16).getLsbD 5 = false) ∧
    ((0x5220#16).extractLsb' 12 4 = 0b0101#4 ∧ (0x5220#16).getLsbD 5 = true) ∧
    (0x903F#16).extractLsb' 12 4 = 0b1001#4 ∧ (0x2003#16).extractLsb' 12 4 = 0b0010#4 ∧
    (0x3601#16).extractLsb' 12 4 = 0b0011#4 ∧ (0x6440#16).extractLsb' 12 4 = 0b0110#4 ∧
    (0x7440#16).extractLsb' 12 4 = 0b0111#4 ∧ (0xA001#16).extractLsb' 12 4 = 0b1010#4 ∧
    (0xB003#16).extractLsb' 12 4 = 0b1011#4 ∧ (0xE207#16).extractLsb' 12 4 = 0b1110#4 ∧
    (0x03FE#16).extractLsb' 12 4 = 0b0000#4 ∧
    ((0x4802#16).extractLsb' 12 4 = 0b0100#4 ∧ (0x4802#16).getLsbD 11 = true) ∧
    ((0x4080#16).extractLsb' 12 4 = 0b0100#4 ∧ (0x4080#16).getLsbD 11 = false) ∧
    ((0xC0C0#16).extractLsb' 12 4 = 0b1100#4 ∧ (0xC0C0#16).extractLsb' 6 3 ≠ 7#3) ∧
    ((0xC1C0#16).extractLsb' 12 4 = 0b1100#4 ∧ (0xC1C0#16).extractLsb' 6 3 = 7#3) ∧
    (0x8000#16).extractLsb' 12 4 = 0b1000#4 ∧ (0xD123#16).extractLsb' 12 4 = 0b1101#4 := by decide

/-- ST: a target at KBSR, at KBDR, and beside them. -/
theorem witness_StStoresPcRelative :
    (State.reset.setPc 0xFE00#16).pc + (0#9).signExtend 16 = 0xFE00#16 ∧
    (State.reset.setPc 0xFE00#16).pc + (2#9).signExtend 16 = 0xFE02#16 ∧
    ((State.reset.setPc 0xFE00#16).pc + (1#9).signExtend 16 ≠ 0xFE00#16 ∧
      (State.reset.setPc 0xFE00#16).pc + (1#9).signExtend 16 ≠ 0xFE02#16) := by decide

/-- STR: a target at KBSR, at KBDR, and beside them. -/
theorem witness_StrStoresBaseOffset :
    (r1 0xFE00#16).reg 1#3 + (0#6).signExtend 16 = 0xFE00#16 ∧
    (r1 0xFE00#16).reg 1#3 + (2#6).signExtend 16 = 0xFE02#16 ∧
    ((r1 0xFE00#16).reg 1#3 + (1#6).signExtend 16 ≠ 0xFE00#16 ∧
      (r1 0xFE00#16).reg 1#3 + (1#6).signExtend 16 ≠ 0xFE02#16) := by decide

/-- LDI: the pointer word at KBDR, the pointer to KBDR, and neither. -/
theorem witness_LdiLoadsIndirect :
    (State.reset.setPc 0xFE02#16).pc + (0#9).signExtend 16 = 0xFE02#16 ∧
    (State.reset.setMem 0x3000#16 0xFE02#16).memAt (State.reset.pc + (0#9).signExtend 16) = 0xFE02#16 ∧
    (State.reset.pc + (0#9).signExtend 16 ≠ 0xFE02#16 ∧
      State.reset.memAt (State.reset.pc + (0#9).signExtend 16) ≠ 0xFE02#16) := by decide

/-- STI: a pointer to KBSR, to KBDR, and to a plain word. -/
theorem witness_StiStoresIndirect :
    (State.reset.setMem 0x3000#16 0xFE00#16).memAt (State.reset.pc + (0#9).signExtend 16) = 0xFE00#16 ∧
    (State.reset.setMem 0x3000#16 0xFE02#16).memAt (State.reset.pc + (0#9).signExtend 16) = 0xFE02#16 ∧
    (State.reset.memAt (State.reset.pc + (0#9).signExtend 16) ≠ 0xFE00#16 ∧
      State.reset.memAt (State.reset.pc + (0#9).signExtend 16) ≠ 0xFE02#16) := by decide

/-- BR: taken, not taken, and each one-hot CC. -/
theorem witness_BrBranchesOnMask :
    0b010#3 &&& State.reset.cc ≠ 0b000#3 ∧ 0b101#3 &&& State.reset.cc = 0b000#3 ∧ State.reset.cc = 0b010#3 := by decide

theorem witness_JsrrLinksThenJumps : (6#3 : Reg) ≠ 7#3 ∧ (7#3 : Reg) = 7#3 := by decide

theorem witness_UndefinedVectorDoesNothing :
    ((0xF01F#16).extractLsb' 12 4 = 0b1111#4 ∧ (0xF01F#16).extractLsb' 0 8 < 0x20#8) ∧
    ((0xF026#16).extractLsb' 12 4 = 0b1111#4 ∧ 0x25#8 < (0xF026#16).extractLsb' 0 8) := by decide

theorem witness_TrapDispatchesOnVector :
    ((0xF020#16).extractLsb' 12 4 = 0b1111#4 ∧ (0xF020#16).extractLsb' 0 8 = 0x20#8) ∧
    (0xFF21#16).extractLsb' 0 8 = 0x21#8 ∧ (0xF022#16).extractLsb' 0 8 = 0x22#8 ∧
    (0xF023#16).extractLsb' 0 8 = 0x23#8 ∧ (0xF024#16).extractLsb' 0 8 = 0x24#8 ∧
    (0xFF25#16).extractLsb' 0 8 = 0x25#8 ∧
    exec (decode 0xF020#16) State.reset = .next (serviceGetc State.reset) :=
  ⟨by decide, by decide, by decide, by decide, by decide, by decide, rfl⟩

/-- A sink that takes k bytes and fails on the next. -/
def failing (k : Nat) (s : State) : State := { s with sinkAnswers := List.replicate k .ok ++ [.error] }

theorem sinkAccepts_reset (n : Nat) : SinkAccepts n State.reset := .inr (fun k _ => by simp [State.reset])

theorem sinkFailsAt_failing (k : Nat) (s : State) (h : s.params.sinkMayFail = true) : SinkFailsAt k (failing k s) := by
  refine ⟨h, fun j hj => ?_, ?_⟩
  · simp [failing, List.getElem?_append, hj]
  · simp [failing]

theorem witness_EmitsStopAtFirstFailure :
    SinkAccepts [1#8, 2#8].length State.reset ∧ SinkFailsAt 1 (failing 1 State.reset) ∧ 1 < [1#8, 2#8].length :=
  ⟨sinkAccepts_reset _, sinkFailsAt_failing 1 _ rfl, by decide⟩

theorem witness_OutEmitsLowByte : SinkAccepts 1 State.reset ∧ SinkFailsAt 0 (failing 0 State.reset) :=
  ⟨sinkAccepts_reset _, sinkFailsAt_failing 0 _ rfl⟩

theorem witness_HaltEmitsAndStops :
    SinkAccepts 5 State.reset ∧ SinkFailsAt 4 (failing 4 State.reset) ∧ SinkFailsAt 0 (failing 0 State.reset) :=
  ⟨sinkAccepts_reset _, sinkFailsAt_failing 4 _ rfl, sinkFailsAt_failing 0 _ rfl⟩

/-- A core in a key wait whose turn it is, with the key buffer k. -/
def waitTurn (r : WaitRoutine) (k : Option Byte) : State :=
  { State.reset with phase := .waitKey r, keyBuf := k, schedule := [.core] }

/-- GETC: an empty buffer, a full one, and a stopped wait that goes on. -/
theorem witness_GetcWaitsThenDelivers :
    (turnOf (waitTurn .getc none) = .core ∧ (waitTurn .getc none).phase = .waitKey .getc ∧
      (waitTurn .getc none).running = true ∧ (waitTurn .getc none).keyBuf = none) ∧
    (turnOf (waitTurn .getc (some 0#8)) = .core ∧ (waitTurn .getc (some 0#8)).keyBuf = some 0#8) ∧
    (turnOf { waitTurn .getc (some 0#8) with running := false } = .core ∧
      ({ waitTurn .getc (some 0#8) with running := false } : State).params.stopCancelsWait ≠ some true) := by decide

/-- IN: the prompt taken and failing on its last byte; in the wait an empty buffer, a full one, a failing echo. -/
theorem witness_InPromptsThenEchoes :
    (SinkAccepts 19 State.reset ∧ SinkFailsAt 18 (failing 18 State.reset)) ∧
    (turnOf (waitTurn .input none) = .core ∧ (waitTurn .input none).phase = .waitKey .input ∧
      (waitTurn .input none).running = true ∧ (waitTurn .input none).keyBuf = none) ∧
    (turnOf (waitTurn .input (some 0#8)) = .core ∧ SinkAccepts 1 (waitTurn .input (some 0#8))) ∧
    (turnOf (failing 0 (waitTurn .input (some 0#8))) = .core ∧ SinkFailsAt 0 (failing 0 (waitTurn .input (some 0#8)))) :=
  ⟨⟨sinkAccepts_reset _, sinkFailsAt_failing 18 _ rfl⟩, by decide,
    ⟨by decide, .inr (fun k _ => by simp [waitTurn, State.reset])⟩, by decide, sinkFailsAt_failing 0 _ rfl⟩

/-- A string of two words, one that goes over KBDR with READY set, and the sink taking or refusing its bytes. -/
theorem witness_PutsEmitsLowBytes :
    (StringReads (withString 0x4000#16 0x48#16 0x69#16 0#16) [0x48#16, 0x69#16] ∧
      IsStringWord (withString 0x4000#16 0x48#16 0x69#16 0#16)
        ((withString 0x4000#16 0x48#16 0x69#16 0#16).reg 0#3) 2 0#16 ∧
      SinkAccepts 2 (withString 0x4000#16 0x48#16 0x69#16 0#16)) ∧
    (StringReads (withString 0xFE02#16 0x41#16 0x42#16 0#16) [0x41#16, 0x42#16] ∧
      IsStringWord (withString 0xFE02#16 0x41#16 0x42#16 0#16)
        ((withString 0xFE02#16 0x41#16 0x42#16 0#16).reg 0#3) 2 0#16) ∧
    (StringReads (failing 1 (withString 0x4000#16 0x48#16 0x69#16 0#16)) ([0x48#16] ++ [0x69#16]) ∧
      SinkFailsAt 1 (failing 1 (withString 0x4000#16 0x48#16 0x69#16 0#16))) := by
  refine ⟨⟨?_, ?_, .inr (fun k _ => by simp [withString, r0, State.setMem, State.setReg, State.reset])⟩, ⟨?_, ?_⟩,
    ?_, sinkFailsAt_failing 1 _ rfl⟩
  all_goals
    simp only [StringReads, isStringWord_iff]
    decide

/-- PUTSP: a word of two bytes, the sink taking both or refusing the second. -/
theorem witness_PutspEmitsPackedBytes :
    (∀ w, putspBytes w = if w.extractLsb' 8 8 = 0x00#8 then [w.extractLsb' 0 8]
      else [w.extractLsb' 0 8, w.extractLsb' 8 8]) ∧
    (StringReads (withString 0x4000#16 0x6548#16 0#16 0#16) [0x6548#16] ∧
      IsStringWord (withString 0x4000#16 0x6548#16 0#16 0#16)
        ((withString 0x4000#16 0x6548#16 0#16 0#16).reg 0#3) 1 0#16 ∧
      SinkAccepts ([0x6548#16].flatMap putspBytes).length (withString 0x4000#16 0x6548#16 0#16 0#16)) ∧
    (StringReads (failing 1 (withString 0x4000#16 0x6548#16 0#16 0#16)) ([] ++ [0x6548#16]) ∧
      1 < (putspBytes 0x6548#16).length ∧
      SinkFailsAt ((([] : List Word).flatMap putspBytes).length + 1)
        (failing 1 (withString 0x4000#16 0x6548#16 0#16 0#16))) := by
  refine ⟨fun w => ?_,
    ⟨?_, ?_, .inr (fun k _ => by simp [withString, r0, State.setMem, State.setReg, State.reset])⟩, ?_, by decide,
    sinkFailsAt_failing 1 _ rfl⟩
  · unfold putspBytes lowByte highByte
    by_cases h : w.extractLsb' 8 8 = 0#8 <;> simp [h]
  all_goals
    simp only [StringReads, isStringWord_iff]
    decide

theorem reset_meets_inv : State.reset.Inv := by
  constructor <;> decide

theorem witness_StringRoutinesComplete : State.reset.Inv := reset_meets_inv

theorem witness_StepKeepsInvariant_StepAlwaysAnswers :
    State.reset.Inv ∧ step State.reset = .next (State.reset.setPc 0x3001#16) := ⟨reset_meets_inv, rfl⟩

theorem witness_StepRunsDecodedInstruction_KeyboardServiceStagesByte :
    (turnOf State.reset = .core ∧ State.reset.phase = .boundary ∧ State.reset.running = true) ∧
    (({ State.reset with keyBuf := some 0#8 } : State).keyBuf = some 0#8 ∧
      (({ State.reset with keyBuf := some 0#8 } : State).memAt 0xFE00#16).getLsbD 15 = false) ∧
    State.reset.keyBuf = none ∧ ((staged 0x41#16).memAt 0xFE00#16).getLsbD 15 = true := by decide

theorem witness_PlacedWordRunsNext : 0xFFFF < 2 ^ 16 ∧ 0 < 2 ^ 16 := by decide

/-- A GETC that waits, stopped, with a byte of input to come. -/
def stoppedWait : State :=
  { State.reset with phase := .waitKey .getc, running := false, stopRequested := true, kbdIn := [7#8] }

theorem witness_StoppedCoreExitsAtBoundary :
    turnOf { State.reset with running := false } = .core ∧
    ({ State.reset with running := false } : State).phase = .boundary := by decide

/-- The keyboard agent's turn: input for an empty buffer, before a stop and in a stopped wait; a full buffer, no input, a
stop requested at a boundary and in a wait that must cancel. -/
theorem witness_KeyboardAgentFillsBuffer :
    (turnOf { State.reset with schedule := [.keyboard], kbdIn := [7#8] } = .keyboard ∧
      ({ State.reset with schedule := [.keyboard], kbdIn := [7#8] } : State).keyBuf = none) ∧
    (turnOf { State.reset with schedule := [.keyboard], keyBuf := some 7#8 } = .keyboard ∧
      ({ State.reset with schedule := [.keyboard], keyBuf := some 7#8 } : State).keyBuf ≠ none) ∧
    (turnOf { State.reset with schedule := [.keyboard] } = .keyboard ∧ State.reset.kbdIn = []) ∧
    (turnOf { State.reset with schedule := [.keyboard], stopRequested := true } = .keyboard ∧
      ∀ r, State.reset.phase ≠ .waitKey r) ∧
    (turnOf stoppedWait = .keyboard ∧ stoppedWait.phase = .waitKey .getc ∧ stoppedWait.params.stopCancelsWait ≠ some true ∧
      stoppedWait.keyBuf = none ∧ stoppedWait.kbdIn = [7#8] ∧ stoppedWait.stopRequested = true) ∧
    turnOf { stoppedWait with
      schedule := [.keyboard], params := { sinkMayFail := true, stopCancelsWait := some true } } = .keyboard := by
  refine ⟨?_, ?_, ?_, ⟨by decide, fun r h => by cases h⟩, ?_, ?_⟩ <;> decide

/-- Both schedules; GETC, and IN on a sink that accepts. -/
theorem witness_StoppedWaitCompletesOnNextByte :
    (stoppedWait.phase = .waitKey .getc ∧ stoppedWait.running = false ∧ stoppedWait.params.stopCancelsWait ≠ some true ∧
      stoppedWait.keyBuf = none ∧ stoppedWait.kbdIn = 7#8 :: [] ∧ stoppedWait.schedule = []) ∧
    (∃ more, ({ stoppedWait with schedule := [.keyboard, .core, .core, .stop] } : State).schedule =
      .keyboard :: .core :: .core :: more) ∧
    ({ stoppedWait with phase := .waitKey .input } : State).phase = .waitKey .input ∧
    SinkAccepts 1 { stoppedWait with phase := .waitKey .input } := by
  refine ⟨by decide, ⟨[.stop], rfl⟩, rfl, .inr fun k _ => ?_⟩
  simp [stoppedWait, State.reset]

/-- The stop agent's turn before and after Exited, and the core's turn after a stop at a boundary. -/
theorem witness_StopRequestClearsRunning :
    (turnOf { State.reset with schedule := [.stop] } = .stop ∧
      ({ State.reset with schedule := [.stop] } : State).phase ≠ .exited) ∧
    turnOf { State.reset with schedule := [.stop], phase := .exited } = .stop ∧
    stepped { State.reset with schedule := [.stop] } turnOf = some .core := by decide

/-- A stopped wait with P_STOP_CANCELS_WAIT unset, true and false. -/
theorem witness_StoppedWaitCancels :
    (turnOf { waitTurn .getc none with running := false, schedule := [.cancel] } = .cancel ∧
      (waitTurn .getc none).params.stopCancelsWait ≠ some false) ∧
    turnOf { waitTurn .getc none with
      running := false, schedule := [], params := { sinkMayFail := true, stopCancelsWait := some true } } = .core ∧
    turnOf { waitTurn .input none with
      running := false, schedule := [.cancel], params := { sinkMayFail := true, stopCancelsWait := some false } } =
      .cancel := by decide

theorem witness_ExitedIsFinal :
    ({ State.reset with phase := .exited, running := false, keyBuf := some 1#8 } : State).phase = .exited ∧
    ({ State.reset with phase := .exited, running := false, keyBuf := some 1#8 } : State).keyBuf ≠ none := by decide

/-- A register, CC and a PC that change: by ADDi, by GETC's second phase, by JMP. -/
theorem witness_OnlyWritersChange :
    exec (.addi 0#3 0#3 5#5) State.reset = .next (State.reset.setRegFlags 0#3 5#16) ∧
    ((State.reset.setRegFlags 0#3 5#16).reg 0#3 ≠ State.reset.reg 0#3 ∧
      (State.reset.setRegFlags 0#3 5#16).cc ≠ State.reset.cc) ∧
    (waitTurn .getc (some 7#8)).phase ≠ .boundary ∧
    stepped (waitTurn .getc (some 7#8)) (fun t => decide (t.reg 0#3 ≠ State.reset.reg 0#3 ∧ t.cc ≠ State.reset.cc)) =
      some true ∧
    exec (.jmp 0#3) State.reset = .next { State.reset with pc := 0#16 } ∧ (0#16 : Word) ≠ State.reset.pc := by
  exact ⟨rfl, by decide, by decide, by decide, rfl, by decide⟩

/-- A plain word that changes by ST, and KBSR by LDR from KBDR. -/
theorem witness_OnlyStoresChangeMemory :
    exec (.st 0#3 0#9) (r0 5#16) = .next ((r0 5#16).setMem 0x3000#16 5#16) ∧
    ((r0 5#16).setMem 0x3000#16 5#16).memAt 0x3000#16 ≠ (r0 5#16).memAt 0x3000#16 ∧
    (memRead (staged 0x41#16) 0xFE02#16).2.memAt 0xFE00#16 ≠ (staged 0x41#16).memAt 0xFE00#16 :=
  ⟨rfl, by decide, by decide⟩

/-- A step that takes a key byte, and one with READY set. -/
theorem witness_OneWayState_EachKeyByteTakenOnce_UnreadByteIsKept :
    step { State.reset with keyBuf := some 7#8 } =
      .next ((stageByte 7#8 { State.reset with keyBuf := some 7#8 }).setPc 0x3001#16) ∧
    ((staged 0x41#16).memAt 0xFE00#16).getLsbD 15 = true ∧
    step (staged 0x41#16) = .next ((staged 0x41#16).setPc 0x3001#16) := ⟨rfl, by decide, rfl⟩

/-- The loader: too short; a word placed at the last address below the cap; addresses below, above and past the end. -/
theorem witness_LoaderPlacesImage :
    [0x30#8, 0x00#8, 0xF0#8].length < 4 ∧
    (4 ≤ [0xFD#8, 0xFF#8, 0x11#8, 0x11#8, 0x22#8, 0x22#8].length ∧ 0xFDFF#16 ≤ 0xFDFF#16 ∧ 0xFDFF#16 < 0xFE00#16 ∧
      2 * ((0xFDFF#16).toNat - (0xFDFF#16).toNat) + 3 < [0xFD#8, 0xFF#8, 0x11#8, 0x11#8, 0x22#8, 0x22#8].length) ∧
    0xFDFE#16 < 0xFDFF#16 ∧ 0xFE00#16 ≤ 0xFE00#16 ∧
    [0x30#8, 0x00#8, 0xF0#8, 0x25#8].length ≤ 2 * ((0x3001#16).toNat - (0x3000#16).toNat) + 3 := by decide

/-- A start that loads with P_GPR_RESET zero and one with it unknown, and one that fails. -/
theorem witness_StartSetsEveryState_ResetMeetsInvariant :
    (State.start [0x30#8, 0x00#8, 0xF0#8, 0x25#8] quietHost).isOk = true ∧ quietHost.gprReset = .zero ∧
    (State.start [0x30#8, 0x00#8, 0xF0#8, 0x25#8] { quietHost with gprReset := .unknown }).isOk = true ∧
    [0x30#8].length < 4 ∧ 4 ≤ [0x30#8, 0x00#8, 0xF0#8, 0x25#8].length ∧ 0x3000#16 = 0x30#8 ++ 0x00#8 ∧
    0x3000#16 < 0xFE00#16 ∧
    (State.start [0x30#8, 0x00#8, 0xF0#8, 0x25#8] { quietHost with kbdIn := [7#8], schedule := [.keyboard] }).map turnOf =
      .ok .keyboard := ⟨rfl, rfl, rfl, by decide, by decide, by decide, by decide, rfl⟩

end Sys2Proof.Tests
end

section
/-! PROOFS. The extensions of 00_scope R12: `sext_N` and `zext_8` as numbers. -/

namespace Sys2Proof.Machine

theorem toNat_zext8 (b : Byte) : (zext8 b).toNat = b.toNat :=
  BitVec.toNat_setWidth_of_le (by decide)

/-- A field whose sign bit is set gains the ones of the bits above it, as a number `2 ^ 16 - 2 ^ n`. -/
theorem toNat_sextField {n : Nat} (f : BitVec n) (hn : n ≤ 16) :
    (sextField f).toNat = f.toNat + if f.msb then 2 ^ 16 - 2 ^ n else 0 := by
  rw [sextField, BitVec.toNat_signExtend, BitVec.toNat_setWidth_of_le hn]

/-- `sext n` reads the low `n` bits of its word, with bit `n - 1` as their sign. -/
theorem toNat_sext {n : Nat} (v : Word) (hpos : 0 < n) (hn : n ≤ 16) :
    (sext n v).toNat = v.toNat % 2 ^ n + if v.getLsbD (n - 1) then 2 ^ 16 - 2 ^ n else 0 := by
  have hsign : (v.setWidth n).msb = v.getLsbD (n - 1) := by simp [BitVec.msb_setWidth, hpos]
  rw [sext, toNat_sextField _ hn, hsign, BitVec.toNat_setWidth]

/-- The meanings extend the field itself; `sext` cuts the same field out of a word first. -/
theorem sextField_eq_sext {n : Nat} (f : BitVec n) (hn : n ≤ 16) : sextField f = sext n (f.setWidth 16) := by
  rw [sext, BitVec.setWidth_setWidth_of_le f hn, BitVec.setWidth_eq]

/-- Adding the ones above the field is R12's `- 2 ^ n` modulo `2 ^ 16`: the field is below `2 ^ n`, so the sum does
not wrap. -/
theorem toNat_sext_eq_formula {n : Nat} (v : Word) (hpos : 0 < n) (hn : n ≤ 16) :
    (sext n v).toNat =
      if v.getLsbD (n - 1) then (v.toNat % 2 ^ n + 0x10000 - 2 ^ n) % 0x10000 else v.toNat % 2 ^ n := by
  have hfield : v.toNat % 2 ^ n < 2 ^ n := Nat.mod_lt _ (Nat.two_pow_pos n)
  have hpow : 2 ^ n ≤ 2 ^ 16 := Nat.pow_le_pow_right (by decide) hn
  rw [toNat_sext v hpos hn]
  split
  case isTrue => omega
  case isFalse => rfl

/-- Settles O6: the field's value plus the ones above it is the formula of R12, and a field put in a word and cut out
again is unchanged. -/
theorem extensionFormulas : Obligations.ExtensionFormulas :=
  ⟨fun _ v hpos hn => toNat_sext_eq_formula v hpos hn, fun _ f hn => sextField_eq_sext f hn, toNat_zext8⟩

end Sys2Proof.Machine
end

section
/-! PROOFS. The frames of the shared operations, field by field, and what the agents' steps and the second phases of
GETC and IN can do (60_exceptions R250, R251, 43_trap R192, R196). -/

namespace Sys2Proof.Machine

/-! ## MemRead, MemWrite and a row of reads change memory only -/

@[simp] theorem memRead_pc (s : State) (a : Word) : (memRead s a).2.pc = s.pc := by rw [memRead_frame]
@[simp] theorem memRead_phase (s : State) (a : Word) : (memRead s a).2.phase = s.phase := by rw [memRead_frame]
@[simp] theorem memWrite_pc (s : State) (a v : Word) : (memWrite s a v).pc = s.pc := by rw [memWrite_frame]
@[simp] theorem memWrite_reg (s : State) (a v : Word) (r : Reg) : (memWrite s a v).reg r = s.reg r := by
  rw [memWrite_frame]; rfl
@[simp] theorem readRun_pc (a : Word) (s : State) (n : Nat) : (readRun a s n).pc = s.pc := by rw [readRun_frame]
@[simp] theorem readRun_reg (a : Word) (s : State) (n : Nat) (r : Reg) : (readRun a s n).reg r = s.reg r := by
  rw [readRun_frame]; rfl

/-! ## What the sink leaves alone -/

@[simp] theorem accepted_pc (s : State) (bs : List Byte) : (accepted s bs).pc = s.pc := rfl
@[simp] theorem accepted_reg (s : State) (bs : List Byte) (r : Reg) : (accepted s bs).reg r = s.reg r := rfl
@[simp] theorem failedAfter_pc (s : State) (bs : List Byte) : (failedAfter s bs).pc = s.pc := rfl
@[simp] theorem failedAfter_reg (s : State) (bs : List Byte) (r : Reg) : (failedAfter s bs).reg r = s.reg r := rfl

/-! ## Keyboard servicing, the end of a run, and the agents -/

@[simp] theorem keyboardService_phase (s : State) : (keyboardService s).phase = s.phase := by
  rcases keyboardService_cases s with h | ⟨b, -, -, h⟩ <;> rw [h]
  rfl

/-- `running` falls, and the cause is kept where it had fallen before. -/
theorem clearRunning_eq (c : StopCause) (s : State) :
    clearRunning c s = { s with running := false, cause := if s.running then some c else s.cause } := by
  unfold clearRunning
  split
  case isTrue => rfl
  case isFalse h => rw [← Bool.eq_false_iff.mpr h]

theorem mayCancel_iff (s : State) :
    mayCancel s = true ↔
      (∃ r, s.phase = .waitKey r) ∧ s.running = false ∧ s.params.stopCancelsWait ≠ some false := by
  cases h : s.phase <;> simp [mayCancel, h]

theorem cancelWait_cases (s : State) :
    cancelWait s = s ∨ (mayCancel s = true ∧ cancelWait s = { s with phase := .exited }) := by
  unfold cancelWait
  split
  case isTrue h => exact .inr ⟨h, rfl⟩
  case isFalse => exact .inl rfl

theorem stopRequest_cases (s : State) :
    (s.phase = .exited ∧ stopRequest s = s) ∨
      (s.phase ≠ .exited ∧ stopRequest s = { clearRunning .stopRequest s with stopRequested := true }) := by
  unfold stopRequest
  split
  case isTrue h => exact .inl ⟨h, rfl⟩
  case isFalse h => exact .inr ⟨h, rfl⟩

/-- The core's step in a key wait: it cancels, it holds, its echo fails, or it delivers the byte, echoed by IN. -/
theorem waitStep_cases (r : WaitRoutine) (s : State) :
    (mustCancel s = true ∧ waitStep r s = cancelWait s) ∨
    (s.keyBuf = none ∧ waitStep r s = s) ∨
    ∃ b, s.keyBuf = some b ∧
      ((r = .input ∧ waitStep r s = failedAfter { s with keyBuf := none } []) ∨
        waitStep r s = deliverKey b (accepted { s with keyBuf := none } (if r = .getc then [] else [b]))) := by
  unfold waitStep
  split
  case isTrue h => exact .inl ⟨h, rfl⟩
  case isFalse =>
    cases hk : s.keyBuf with
    | none => exact .inr (.inl ⟨rfl, rfl⟩)
    | some b =>
      refine .inr (.inr ⟨b, rfl, ?_⟩)
      cases r with
      | getc => exact .inr (congrArg (deliverKey b) (accepted_nil { s with keyBuf := none }).symm)
      | input =>
        rcases emit_thenDo_cases b { s with keyBuf := none } (deliverKey b) with h | h
        · exact .inr h
        · exact .inl ⟨rfl, h⟩

/-- Outside phase Boundary a step leaves registers, flags and PC alone, or ends a key wait by delivering a byte. -/
theorem step_cases_off_boundary (s t : State) (hb : s.phase ≠ .boundary) (h : step s = .next t) :
    (t.regs = s.regs ∧ t.cc = s.cc ∧ t.pc = s.pc) ∨
    ∃ w b u, s.phase = .waitKey w ∧ u.regs = s.regs ∧ u.pc = s.pc ∧ t = deliverKey b u := by
  rcases step_cases s t h with ⟨-, hp, -⟩ | ⟨-, hp, -⟩ | ⟨w, -, hp, rfl⟩ | ⟨-, -, rfl⟩ | ⟨-, rfl⟩ | ⟨-, rfl⟩ | ⟨-, rfl⟩
  · exact absurd hp hb
  · exact absurd hp hb
  · rcases waitStep_cases w (takeTurn s) with ⟨-, he⟩ | ⟨-, he⟩ | ⟨b, -, ⟨-, he⟩ | he⟩
    · rcases cancelWait_cases (takeTurn s) with hc | ⟨-, hc⟩ <;> rw [he, hc] <;> exact .inl ⟨rfl, rfl, rfl⟩
    · rw [he]; exact .inl ⟨rfl, rfl, rfl⟩
    · rw [he]; exact .inl ⟨rfl, rfl, rfl⟩
    · exact .inr ⟨w, b, accepted { takeTurn s with keyBuf := none } _, hp, rfl, rfl, he⟩
  · exact .inl ⟨rfl, rfl, rfl⟩
  · rcases cancelWait_cases (takeTurn s) with hc | ⟨-, hc⟩ <;> rw [hc] <;> exact .inl ⟨rfl, rfl, rfl⟩
  · rcases keyAgentStep_cases (takeTurn s) with hk | ⟨b, rest, -, -, -, hk⟩ <;> rw [hk] <;> exact .inl ⟨rfl, rfl, rfl⟩
  · rcases stopRequest_cases (takeTurn s) with ⟨-, hs⟩ | ⟨-, hs⟩ <;> rw [hs]
    · exact .inl ⟨rfl, rfl, rfl⟩
    · rw [clearRunning_eq]; exact .inl ⟨rfl, rfl, rfl⟩

end Sys2Proof.Machine
end

section
/-! PROOFS. The invariant of 10_state R39: every operation keeps it, so every step does. -/

namespace Sys2Proof.Machine

/-! ## The clauses about memory -/

/-- What State.Inv says of memory: the canonical form, and the device cells at values the device path gives them. -/
structure Memory.Legal (m : Memory) : Prop where
  canonical : m.wf = true
  kbsr : m.read 0xFE00#16 = 0x0000#16 ∨ m.read 0xFE00#16 = 0x8000#16
  kbdr : (m.read 0xFE02#16).extractLsb' 8 8 = 0x00#8

theorem State.Inv.memLegal {s : State} (h : s.Inv) : s.mem.Legal := ⟨h.memCanonical, h.kbsrLegal, h.kbdrLegal⟩

theorem Memory.legal_nil : Memory.Legal [] := ⟨rfl, .inl rfl, rfl⟩

/-- A write beside the device cells. -/
theorem Memory.Legal.write {m : Memory} (h : m.Legal) {a : Word} (hs : a ≠ 0xFE00#16) (hd : a ≠ 0xFE02#16) (v : Word) :
    (m.write a v).Legal where
  canonical := m.wf_write a v h.canonical
  kbsr := by rw [m.read_write, if_neg hs.symm]; exact h.kbsr
  kbdr := by rw [m.read_write, if_neg hd.symm]; exact h.kbdr

/-- MemRead keeps KBDR and at most clears READY. -/
theorem memRead_legal {s : State} (h : s.mem.Legal) (a : Word) : (memRead s a).2.mem.Legal where
  canonical := memRead_wf s a h.canonical
  kbsr := by
    show (memRead s a).2.memAt _ = _ ∨ (memRead s a).2.memAt _ = _
    rw [memRead_memAt, afterRead]
    split
    · rcases h.kbsr with hk | hk <;> exact .inl (by rw [State.memAt, hk]; decide)
    · exact h.kbsr
  kbdr := by
    show ((memRead s a).2.memAt _).extractLsb' 8 8 = _
    rw [memRead_memAt, afterRead, if_neg (by simp)]
    exact h.kbdr

theorem memWrite_legal {s : State} (h : s.mem.Legal) (a v : Word) : (memWrite s a v).mem.Legal := by
  unfold memWrite
  split
  case isTrue => exact h
  case isFalse ha => exact h.write (fun hs => ha (.inl hs)) (fun hd => ha (.inr hd)) v

/-- Staging sets READY and puts a zero-extended byte in KBDR. -/
theorem stageByte_legal (b : Byte) {s : State} (h : s.mem.Legal) : (stageByte b s).mem.Legal where
  canonical := stageByte_wf b s h.canonical
  kbsr := by
    show (stageByte b s).memAt _ = _ ∨ (stageByte b s).memAt _ = _
    rw [stageByte_memAt]
    rcases h.kbsr with hk | hk <;> exact .inr (by simp [State.memAt, hk])
  kbdr := by
    show ((stageByte b s).memAt _).extractLsb' 8 8 = _
    rw [stageByte_memAt, if_pos rfl]
    ext i hi
    simp [zext8]

/-! ## The operations that keep one part of the state -/

theorem flagOf_oneHot (v : Word) : flagOf v = 0b001#3 ∨ flagOf v = 0b010#3 ∨ flagOf v = 0b100#3 := by
  unfold flagOf
  split
  · exact .inr (.inl rfl)
  split
  · exact .inr (.inr rfl)
  · exact .inl rfl

namespace State.Inv

variable {s : State}

theorem withMem (h : s.Inv) {m : Memory} (hm : m.Legal) : ({ s with mem := m } : State).Inv :=
  { h with memCanonical := hm.canonical, kbsrLegal := hm.kbsr, kbdrLegal := hm.kbdr }

/-- Before Exited the phase may change, to Exited only once `running` is false. -/
theorem withPhase (h : s.Inv) (hp : s.phase ≠ .exited) {p : Phase} (hr : p = .exited → s.running = false) :
    ({ s with phase := p } : State).Inv :=
  { h with exitedStopped := hr, sinkErrorExited := fun he => absurd (h.sinkErrorExited he) hp }

theorem withKeyBuf (h : s.Inv) (k : Option Byte) (i : List Byte) : ({ s with keyBuf := k, kbdIn := i } : State).Inv :=
  { h with }

theorem setPc (h : s.Inv) (a : Word) : (s.setPc a).Inv := { h with }

theorem link (h : s.Inv) : (link s).Inv := { h with }

theorem setRegFlags (h : s.Inv) (r : Reg) (v : Word) : (s.setRegFlags r v).Inv :=
  { h with ccOneHot := by rw [State.setRegFlags_cc]; exact flagOf_oneHot v }

theorem takeTurn (h : s.Inv) : (takeTurn s).Inv := { h with }

theorem memRead (h : s.Inv) (a : Word) : (memRead s a).2.Inv :=
  memRead_frame s a ▸ h.withMem (memRead_legal h.memLegal a)

theorem memWrite (h : s.Inv) (a v : Word) : (memWrite s a v).Inv :=
  memWrite_frame s a v ▸ h.withMem (memWrite_legal h.memLegal a v)

theorem loadFrom (h : s.Inv) (r : Reg) (ea : Word) : (loadFrom r ea s).Inv := (h.memRead ea).setRegFlags r _

theorem readRun (h : s.Inv) (a : Word) (n : Nat) : (readRun a s n).Inv := by
  induction n with
  | zero => exact h
  | succ n ih => exact ih.memRead _

/-! ## Output and the end of a run -/

theorem accepted (h : s.Inv) (bs : List Byte) : (accepted s bs).Inv := { h with }

/-- Once `running` has fallen a cause is known. -/
theorem cause_ne_none (h : s.Inv) (c : StopCause) : (if s.running then some c else s.cause) ≠ none := by
  cases hr : s.running with
  | true => simp
  | false => simpa [hr] using h.causeKnown.not

theorem failedAfter (h : s.Inv) (bs : List Byte) : (failedAfter s bs).Inv :=
  { h with
    exitedStopped := fun _ => rfl
    sinkErrorExited := fun _ => rfl
    stopStopped := fun _ => rfl
    causeKnown := iff_of_false (h.cause_ne_none _) Bool.false_ne_true }

theorem clearRunning (h : s.Inv) (c : StopCause) : (clearRunning c s).Inv := by
  rw [clearRunning_eq]
  exact { h with
    exitedStopped := fun _ => rfl
    stopStopped := fun _ => rfl
    causeKnown := iff_of_false (h.cause_ne_none c) Bool.false_ne_true }

/-! ## The agents and the key wait -/

theorem keyboardService (h : s.Inv) : (keyboardService s).Inv := by
  rcases keyboardService_cases s with he | ⟨b, -, -, he⟩ <;> rw [he]
  · exact h
  · rw [stageByte_frame]
    exact (h.withKeyBuf none s.kbdIn).withMem (stageByte_legal b h.memLegal)

theorem keyAgentStep (h : s.Inv) : (keyAgentStep s).Inv := by
  rcases keyAgentStep_cases s with he | ⟨b, rest, -, -, -, he⟩ <;> rw [he]
  · exact h
  · exact h.withKeyBuf (some b) rest

theorem stopRequest (h : s.Inv) : (stopRequest s).Inv := by
  rcases stopRequest_cases s with ⟨-, he⟩ | ⟨-, he⟩ <;> rw [he]
  · exact h
  · exact { h.clearRunning .stopRequest with stopStopped := fun _ => by rw [clearRunning_eq] }

theorem cancelWait (h : s.Inv) : (cancelWait s).Inv := by
  rcases cancelWait_cases s with he | ⟨hc, he⟩ <;> rw [he]
  · exact h
  · obtain ⟨⟨r, hp⟩, hr, -⟩ := (mayCancel_iff s).mp hc
    exact h.withPhase (by simp [hp]) (fun _ => hr)

theorem deliverKey (h : s.Inv) (hp : s.phase ≠ .exited) (b : Byte) : (deliverKey b s).Inv :=
  (h.setRegFlags 0#3 (zext8 b)).withPhase hp Phase.noConfusion

theorem waitStep (h : s.Inv) {r : WaitRoutine} (hp : s.phase = .waitKey r) : (waitStep r s).Inv := by
  have hk : ({ s with keyBuf := none } : State).Inv := h.withKeyBuf none s.kbdIn
  rcases waitStep_cases r s with ⟨-, he⟩ | ⟨-, he⟩ | ⟨b, -, ⟨-, he⟩ | he⟩ <;> rw [he]
  · exact h.cancelWait
  · exact h
  · exact hk.failedAfter []
  · exact (hk.accepted _).deliverKey (by simp [Machine.accepted, hp]) b

/-! ## Instructions and steps -/

/-- Every effect of an instruction keeps the invariant; a key wait begins at a boundary only. -/
theorem effect {i : Instr} {t : State} (h : s.Inv) (hp : s.phase = .boundary) (he : Effect i s t) : t.Inv := by
  have hne : s.phase ≠ .exited := by simp [hp]
  cases he with
  | operate r v => exact h.setRegFlags r v
  | load r ea => exact h.loadFrom r ea
  | loadIndirect r a p => exact (h.memRead a).loadFrom r p
  | store ea v => exact h.memWrite ea v
  | storeIndirect a p v => exact (h.memRead a).memWrite p v
  | jump p => exact h.setPc p
  | call p => exact h.link.setPc p
  | nothing => exact h
  | waitForKey => exact h.withPhase hne Phase.noConfusion
  | output bs => exact h.accepted bs
  | outputFails bs => exact h.failedAfter bs
  | outputThenHalt bs => exact (h.accepted bs).clearRunning .halt
  | outputThenWait bs => exact (h.accepted bs).withPhase hne Phase.noConfusion
  | string n bs => exact (h.readRun _ n).accepted bs
  | stringFails n bs => exact (h.readRun _ n).failedAfter bs

theorem fetchExecute {t : State} (h : s.Inv) (hp : s.phase = .boundary) (hs : fetchExecute s = .next t) : t.Inv :=
  ((h.memRead s.pc).setPc _).effect (by simp [hp]) (exec_effect _ _ _ hs)

end State.Inv

/-- Settles O48: by the cases of a step, each an operation that keeps the invariant. -/
theorem stepKeepsInvariant : Obligations.StepKeepsInvariant := by
  intro s t h hs
  have ht : (takeTurn s).Inv := h.takeTurn
  rcases step_cases s t hs with ⟨-, hp, -, hf⟩ | ⟨-, hp, hr, rfl⟩ | ⟨r, -, hp, rfl⟩ | ⟨-, -, rfl⟩ | ⟨-, rfl⟩ |
    ⟨-, rfl⟩ | ⟨-, rfl⟩
  · exact ht.keyboardService.fetchExecute (by rw [keyboardService_phase]; exact hp) hf
  · exact ht.withPhase (by simp [takeTurn, hp]) (fun _ => hr)
  · exact ht.waitStep hp
  · exact ht
  · exact ht.cancelWait
  · exact ht.keyAgentStep
  · exact ht.stopRequest

end Sys2Proof.Machine
end

section
/-! PROOFS. The canonical form of memory names one list per memory array (10_state R31). -/

namespace Sys2Proof.Machine

theorem Memory.wfFrom_cons (lo k : Nat) (v : Word) (m : Memory) :
    Memory.wfFrom lo ((k, v) :: m) = true ↔
      lo ≤ k ∧ k < 0x10000 ∧ v ≠ Memory.unlisted ∧ Memory.wfFrom (k + 1) m = true := by
  simp [Memory.wfFrom, and_assoc]

theorem Memory.read_head {k : Nat} (hk : k < 0x10000) (v : Word) (m : Memory) :
    Memory.read ((k, v) :: m) (BitVec.ofNatLT k hk) = v := if_pos rfl

/-- A canonical list from `lo` up has no cell below `lo`. -/
theorem Memory.read_of_lt {m : Memory} {lo : Nat} (h : Memory.wfFrom lo m = true) {a : Word} (ha : a.toNat < lo) :
    m.read a = Memory.unlisted := by
  induction m generalizing lo with
  | nil => rfl
  | cons c m ih =>
    obtain ⟨k, v⟩ := c
    obtain ⟨hk, -, -, hm⟩ := (Memory.wfFrom_cons lo k v m).mp h
    rw [Memory.read, if_neg (by omega)]
    exact ih hm (by omega)

/-- The head cell of a canonical list is the first address that does not read as unlisted, so a list that reads the same
starts no later. -/
theorem Memory.head_le_of_read_eq {m m' : Memory} {lo k k' : Nat} {v v' : Word}
    (h : Memory.wfFrom lo ((k, v) :: m) = true) (h' : Memory.wfFrom lo ((k', v') :: m') = true)
    (hr : ∀ a, Memory.read ((k, v) :: m) a = Memory.read ((k', v') :: m') a) : k' ≤ k := by
  obtain ⟨-, hk, hv, -⟩ := (Memory.wfFrom_cons lo k v m).mp h
  obtain ⟨-, htail⟩ := (Memory.wfFrom_cons lo k' v' m').mp h'
  by_contra hlt
  have hw : Memory.wfFrom k' ((k', v') :: m') = true :=
    (Memory.wfFrom_cons k' k' v' m').mpr ⟨le_rfl, htail⟩
  refine hv ?_
  calc v = Memory.read ((k, v) :: m) (BitVec.ofNatLT k hk) := (Memory.read_head hk v m).symm
    _ = Memory.read ((k', v') :: m') (BitVec.ofNatLT k hk) := hr _
    _ = Memory.unlisted := Memory.read_of_lt hw (Nat.lt_of_not_le hlt)

/-- Behind the same head cell, canonical lists that read the same go on with lists that read the same. -/
theorem Memory.tail_read_eq {m m' : Memory} {k : Nat} {v : Word} (h : Memory.wfFrom (k + 1) m = true)
    (h' : Memory.wfFrom (k + 1) m' = true)
    (hr : ∀ a, Memory.read ((k, v) :: m) a = Memory.read ((k, v) :: m') a) (a : Word) : m.read a = m'.read a := by
  by_cases hk : k = a.toNat
  · rw [Memory.read_of_lt h (by omega), Memory.read_of_lt h' (by omega)]
  · simpa [Memory.read, hk] using hr a

theorem Memory.eq_nil_of_read_unlisted {m : Memory} {lo : Nat} (h : Memory.wfFrom lo m = true)
    (hr : ∀ a, m.read a = Memory.unlisted) : m = [] := by
  cases m with
  | nil => rfl
  | cons c m =>
    obtain ⟨k, v⟩ := c
    obtain ⟨-, hk, hv, -⟩ := (Memory.wfFrom_cons lo k v m).mp h
    exact absurd ((Memory.read_head hk v m).symm.trans (hr _)) hv

theorem Memory.eq_of_read_eq {m m' : Memory} {lo : Nat} (h : Memory.wfFrom lo m = true)
    (h' : Memory.wfFrom lo m' = true) (hr : ∀ a, m.read a = m'.read a) : m = m' := by
  induction m generalizing lo m' with
  | nil => exact (Memory.eq_nil_of_read_unlisted h' fun a => (hr a).symm).symm
  | cons c m ih =>
    cases m' with
    | nil => exact Memory.eq_nil_of_read_unlisted h hr
    | cons c' m' =>
      obtain ⟨k, v⟩ := c
      obtain ⟨k', v'⟩ := c'
      obtain rfl : k = k' :=
        le_antisymm (Memory.head_le_of_read_eq h' h fun a => (hr a).symm) (Memory.head_le_of_read_eq h h' hr)
      obtain ⟨-, hk, -, hm⟩ := (Memory.wfFrom_cons lo k v m).mp h
      obtain ⟨-, -, -, hm'⟩ := (Memory.wfFrom_cons lo k v' m').mp h'
      obtain rfl : v = v' := (Memory.read_head hk v m).symm.trans ((hr _).trans (Memory.read_head hk v' m'))
      rw [ih hm hm' (Memory.tail_read_eq hm hm' hr)]

/-- Settles O9, by induction on the two lists: their head cells agree, and so do the memories behind them. -/
theorem canonicalMemoryIsUnique : Obligations.CanonicalMemoryIsUnique :=
  fun _ _ h h' hr => Memory.eq_of_read_eq h h' hr

end Sys2Proof.Machine
end

section
/-! PROOFS. Who writes the general registers and the PC (10_state R21, R24). -/

namespace Sys2Proof.Machine

/-- Register `r` is the destination of instruction `i`: its DR, or R7 for a link. -/
def HasDest (i : Instr) (r : Reg) : Prop :=
  (∃ a b, i = .add r a b) ∨ (∃ a b, i = .addi r a b) ∨ (∃ a b, i = .and r a b) ∨ (∃ a b, i = .andi r a b) ∨
  (∃ a, i = .not r a) ∨ (∃ a, i = .ld r a) ∨ (∃ a, i = .ldi r a) ∨ (∃ a b, i = .ldr r a b) ∨ (∃ a, i = .lea r a) ∨
  (r = 7#3 ∧ ((∃ a, i = .jsr a) ∨ ∃ a, i = .jsrr a))

theorem reg_loadFrom (s : State) (d r : Reg) (ea : Word) :
    (loadFrom d ea s).reg r = if r = d then s.memAt ea else s.reg r := by
  rw [loadFrom, State.reg_setRegFlags, memRead_fst, memRead_reg]

/-- After a write of register d, a register is as it was or is d. -/
theorem unchanged_or_of_write {i : Instr} {s t : State} {d r : Reg} {v : Word}
    (h : t.reg r = if r = d then v else s.reg r) (hd : HasDest i d) : t.reg r = s.reg r ∨ HasDest i r := by
  by_cases hr : r = d
  · exact .inr (hr ▸ hd)
  · exact .inl (by rw [h, if_neg hr])

/-- What an effect does to a register: nothing, or it is the instruction's destination. -/
theorem Effect.reg {i : Instr} {s t : State} (h : Effect i s t) (r : Reg) : t.reg r = s.reg r ∨ HasDest i r := by
  cases h with
  | operate d v hi => exact unchanged_or_of_write (State.reg_setRegFlags s d r v) (by grind [HasDest])
  | load d ea hi => exact unchanged_or_of_write (reg_loadFrom s d r ea) (by grind [HasDest])
  | loadIndirect d a p hi =>
    exact unchanged_or_of_write ((reg_loadFrom _ d r p).trans (by rw [memRead_reg])) (by grind [HasDest])
  | call p hi => exact unchanged_or_of_write (State.reg_setReg s 7#3 r s.pc) (by grind [HasDest])
  | store ea v => exact .inl (memWrite_reg s ea v r)
  | storeIndirect a p v => exact .inl (by rw [memWrite_reg, memRead_reg])
  | string n bs => exact .inl (readRun_reg _ s n r)
  | stringFails n bs => exact .inl (readRun_reg _ s n r)
  | outputThenHalt bs => exact .inl (by rw [clearRunning_eq]; rfl)
  | jump | nothing | waitForKey | output | outputFails | outputThenWait => exact .inl rfl

/-- What an effect does to the PC: nothing, or the instruction is a transfer of control. -/
theorem Effect.pc {i : Instr} {s t : State} (h : Effect i s t) :
    t.pc = s.pc ∨
    (∃ a b, i = .br a b) ∨ (∃ a, i = .jsr a) ∨ (∃ a, i = .jsrr a) ∨ (∃ a, i = .jmp a) ∨ i = .ret := by
  cases h with
  | jump p hi => grind
  | call p hi => grind
  | load r ea => exact .inl (memRead_pc s ea)
  | loadIndirect r a p => exact .inl (by rw [loadFrom, State.setRegFlags_pc, memRead_pc, memRead_pc])
  | store ea v => exact .inl (memWrite_pc s ea v)
  | storeIndirect a p v => exact .inl (by rw [memWrite_pc, memRead_pc])
  | string n bs => exact .inl (readRun_pc _ s n)
  | stringFails n bs => exact .inl (readRun_pc _ s n)
  | outputThenHalt bs => exact .inl (by rw [clearRunning_eq]; rfl)
  | operate | nothing | waitForKey | output | outputFails | outputThenWait => exact .inl rfl

theorem deliverKey_reg (b : Byte) (s : State) (r : Reg) :
    (deliverKey b s).reg r = if r = 0#3 then zext8 b else s.reg r :=
  State.reg_setRegFlags s 0#3 r (zext8 b)

/-- Settles O51: by the effects of an instruction, and by the cases of a step outside Boundary, of which only the
delivery of a key writes a register, R0. -/
theorem onlyWritersChangeRegisters : Obligations.OnlyWritersChangeRegisters := by
  refine ⟨fun i s t r h hr => ((exec_effect i s t h).reg r).resolve_left hr, fun s t r hb h hr => ?_⟩
  rcases step_cases_off_boundary s t hb h with ⟨hregs, -⟩ | ⟨w, b, u, hw, hregs, -, rfl⟩
  · exact absurd (by simp [State.reg, hregs]) hr
  · refine ⟨?_, w, hw⟩
    by_contra h0
    rw [deliverKey_reg, if_neg h0] at hr
    exact hr (by simp [State.reg, hregs])

/-- Settles O53: by the effects of an instruction, and by the cases of a step outside Boundary. -/
theorem onlyTransfersChangePc : Obligations.OnlyTransfersChangePc := by
  refine ⟨fun i s t h hp => (exec_effect i s t h).pc.resolve_left hp, fun s t hb h => ?_⟩
  rcases step_cases_off_boundary s t hb h with ⟨-, -, hpc⟩ | ⟨w, b, u, -, -, hpc, rfl⟩
  · exact hpc
  · exact hpc

end Sys2Proof.Machine
end

section
/-! PROOFS. What a step moves one way only (10_state R33, R35, R36). -/

namespace Sys2Proof.Machine

/-- From s to t `running` did not rise, the sink error and the stop request did not fall, the output grew at its end,
and the parameters and the schedule stayed. -/
structure OneWay (s t : State) : Prop where
  running : t.running = true → s.running = true
  sinkError : s.sinkError = true → t.sinkError = true
  out : s.out <+: t.out
  stopRequested : s.stopRequested = true → t.stopRequested = true
  params : t.params = s.params
  schedule : t.schedule = s.schedule

namespace OneWay

variable {s t u : State}

/-- A change of none of the fields concerned. -/
theorem of_frame (h : t = { t with
    running := s.running, sinkError := s.sinkError, out := s.out, stopRequested := s.stopRequested,
    params := s.params, schedule := s.schedule }) : OneWay s t := by
  rw [h]
  exact ⟨id, id, ⟨[], List.append_nil _⟩, id, rfl, rfl⟩

protected theorem refl (s : State) : OneWay s s := of_frame rfl

protected theorem trans (h : OneWay s t) (h' : OneWay t u) : OneWay s u where
  running := h.running ∘ h'.running
  sinkError := h'.sinkError ∘ h.sinkError
  out := h.out.trans h'.out
  stopRequested := h'.stopRequested ∘ h.stopRequested
  params := h'.params.trans h.params
  schedule := h'.schedule.trans h.schedule

/-! ## The operations -/

theorem setPc (s : State) (a : Word) : OneWay s (s.setPc a) := of_frame rfl

theorem memRead (s : State) (a : Word) : OneWay s (memRead s a).2 := memRead_frame s a ▸ of_frame rfl

theorem memWrite (s : State) (a v : Word) : OneWay s (memWrite s a v) := memWrite_frame s a v ▸ of_frame rfl

theorem loadFrom (r : Reg) (ea : Word) (s : State) : OneWay s (loadFrom r ea s) := (memRead s ea).trans (of_frame rfl)

theorem readRun (a : Word) (s : State) (n : Nat) : OneWay s (readRun a s n) := readRun_frame a s n ▸ of_frame rfl

theorem accepted (s : State) (bs : List Byte) : OneWay s (accepted s bs) :=
  ⟨id, id, ⟨bs, rfl⟩, id, rfl, rfl⟩

theorem failedAfter (s : State) (bs : List Byte) : OneWay s (failedAfter s bs) :=
  ⟨fun h => absurd h Bool.false_ne_true, fun _ => rfl, ⟨bs, rfl⟩, id, rfl, rfl⟩

theorem clearRunning (c : StopCause) (s : State) : OneWay s (clearRunning c s) := by
  rw [clearRunning_eq]
  exact ⟨fun h => absurd h Bool.false_ne_true, id, ⟨[], List.append_nil _⟩, id, rfl, rfl⟩

theorem keyboardService (s : State) : OneWay s (keyboardService s) := by
  rcases keyboardService_cases s with h | ⟨b, -, -, h⟩ <;> rw [h] <;> exact of_frame rfl

theorem keyAgentStep (s : State) : OneWay s (keyAgentStep s) := by
  rcases keyAgentStep_cases s with h | ⟨b, rest, -, -, -, h⟩ <;> rw [h] <;> exact of_frame rfl

theorem cancelWait (s : State) : OneWay s (cancelWait s) := by
  rcases cancelWait_cases s with h | ⟨-, h⟩ <;> rw [h] <;> exact of_frame rfl

theorem stopRequest (s : State) : OneWay s (stopRequest s) := by
  rcases stopRequest_cases s with ⟨-, h⟩ | ⟨-, h⟩ <;> rw [h]
  · exact .refl s
  · exact { clearRunning .stopRequest s with stopRequested := fun _ => rfl }

theorem waitStep (r : WaitRoutine) (s : State) : OneWay s (waitStep r s) := by
  have hk : OneWay s { s with keyBuf := none } := of_frame rfl
  rcases waitStep_cases r s with ⟨-, h⟩ | ⟨-, h⟩ | ⟨b, -, ⟨-, h⟩ | h⟩ <;> rw [h]
  · exact cancelWait s
  · exact .refl s
  · exact hk.trans (failedAfter _ _)
  · exact (hk.trans (accepted _ _)).trans (of_frame rfl)

theorem of_effect {i : Instr} (h : Effect i s t) : OneWay s t := by
  cases h with
  | load r ea => exact loadFrom r ea s
  | loadIndirect r a p => exact (memRead s a).trans (loadFrom r p _)
  | store ea v => exact memWrite s ea v
  | storeIndirect a p v => exact (memRead s a).trans (memWrite _ p v)
  | output bs => exact accepted s bs
  | outputFails bs => exact failedAfter s bs
  | outputThenHalt bs => exact (accepted s bs).trans (clearRunning .halt _)
  | outputThenWait bs => exact (accepted s bs).trans (of_frame rfl)
  | string n bs => exact (readRun _ s n).trans (accepted _ bs)
  | stringFails n bs => exact (readRun _ s n).trans (failedAfter _ bs)
  | operate | jump | call | nothing | waitForKey => exact of_frame rfl

theorem of_fetchExecute (h : fetchExecute s = .next t) : OneWay s t :=
  ((memRead s s.pc).trans (setPc _ _)).trans (of_effect (exec_effect _ _ _ h))

/-- After its turn is taken from the schedule, a step is one-way. -/
theorem of_step (h : step s = .next t) : OneWay (takeTurn s) t := by
  rcases step_cases s t h with ⟨-, -, -, hf⟩ | ⟨-, -, -, rfl⟩ | ⟨r, -, -, rfl⟩ | ⟨-, -, rfl⟩ | ⟨-, rfl⟩ | ⟨-, rfl⟩ |
    ⟨-, rfl⟩
  · exact (keyboardService _).trans (of_fetchExecute hf)
  · exact of_frame rfl
  · exact waitStep r _
  · exact .refl _
  · exact cancelWait _
  · exact keyAgentStep _
  · exact stopRequest _

end OneWay

/-- Settles O55: by the cases of a step, each a chain of one-way operations. -/
theorem oneWayState : Obligations.OneWayState := by
  intro s t h
  obtain ⟨hrun, hsink, hout, hstop, hparams, hsched⟩ := OneWay.of_step h
  exact ⟨hrun, hsink, hout, hstop, hparams, hsched⟩

end Sys2Proof.Machine
end

section
/-! PROOFS. Reset and start (10_state R38, 70_reset_and_hazards R271, R276, R277). -/

namespace Sys2Proof.Machine

/-! ## The loader -/

/-- The words the loader places are below the device cells. -/
theorem ne_device_of_lt_loaderCap {a : Word} (h : a < loaderCap) : a ≠ 0xFE00#16 ∧ a ≠ 0xFE02#16 := by
  constructor <;> rintro rfl <;> exact absurd h (by decide)

theorem loadWords_legal (a : Word) (buf : List Byte) (m : Memory) (h : m.Legal) : (loadWords a buf m).Legal := by
  induction a, buf, m using loadWords.induct with
  | case1 a hi lo rest m ha ih =>
    obtain ⟨hs, hd⟩ := ne_device_of_lt_loaderCap ha
    rw [loadWords, if_pos ha]
    exact ih (h.write hs hd _)
  | case2 a hi lo rest m ha => rw [loadWords, if_neg ha]; exact h
  | case3 => exact h
  | case4 => exact h

/-- The loader leaves the addresses from the cap up alone. -/
theorem loadWords_read_of_ge (a : Word) (buf : List Byte) (m : Memory) {d : Word} (hd : loaderCap ≤ d) :
    (loadWords a buf m).read d = m.read d := by
  induction a, buf, m using loadWords.induct with
  | case1 a hi lo rest m ha ih =>
    rw [loadWords, if_pos ha, ih, Memory.read_write, if_neg]
    rintro rfl
    exact absurd ha (BitVec.not_lt.mpr hd)
  | case2 a hi lo rest m ha => rw [loadWords, if_neg ha]
  | case3 => rfl
  | case4 => rfl

theorem loadWords_pair {a : Word} (ha : a < loaderCap) (hi lo : Byte) (m : Memory) :
    loadWords a [hi, lo] m = m.write a (bigEndian hi lo) := by
  rw [loadWords, if_pos ha, loadWords]

/-- An image loads if it has an origin and a word behind it. -/
theorem loadImage_cases (buf : List Byte) (m : Memory) :
    (buf.length < 4 ∧ loadImage buf m = .error .fileTooShort) ∨
    ∃ hi lo b0 b1 rest, buf = hi :: lo :: b0 :: b1 :: rest ∧
      loadImage buf m = .ok (loadWords (bigEndian hi lo) (b0 :: b1 :: rest) m) := by
  match buf with
  | [] | [_] | [_, _] | [_, _, _] => exact .inl ⟨by simp, rfl⟩
  | hi :: lo :: b0 :: b1 :: rest => exact .inr ⟨hi, lo, b0, b1, rest, rfl, rfl⟩

theorem loadImage_legal {buf : List Byte} {m m' : Memory} (h : m.Legal) (hl : loadImage buf m = .ok m') : m'.Legal := by
  rcases loadImage_cases buf m with ⟨-, he⟩ | ⟨hi, lo, b0, b1, rest, -, he⟩ <;> rw [he] at hl
  · cases hl
  · cases hl
    exact loadWords_legal _ _ _ h

/-! ## Start -/

/-- R0 to R7 after start, by P_GPR_RESET (10_state R38). -/
def startRegs (h : HostInputs) : Vector Word 8 :=
  match h.gprReset with
  | .zero => Vector.replicate 8 0x0000#16
  | .unknown => h.gprDraw

/-- The state of a start whose image left memory m. -/
def startedState (h : HostInputs) (m : Memory) : State :=
  { State.reset with
    regs := startRegs h, mem := m, params := h.params, kbdIn := h.kbdIn, sinkAnswers := h.sinkAnswers
    schedule := h.schedule }

theorem start_of_error {image : List Byte} {e : LoadError} (h : HostInputs) (hl : loadImage image [] = .error e) :
    State.start image h = .error e := by
  rw [State.start, hl]

theorem start_of_ok {image : List Byte} {m : Memory} (h : HostInputs) (hl : loadImage image [] = .ok m) :
    State.start image h = .ok (startedState h m) := by
  rw [State.start, hl]
  rfl

theorem start_ok_cases {image : List Byte} {h : HostInputs} {s : State} (hs : State.start image h = .ok s) :
    ∃ m, loadImage image [] = .ok m ∧ s = startedState h m := by
  cases hl : loadImage image [] with
  | error e => rw [start_of_error h hl] at hs; cases hs
  | ok m => rw [start_of_ok h hl] at hs; cases hs; exact ⟨m, rfl, rfl⟩

/-- A start state meets the invariant: its control fields are those of reset, and memory is all that varies. -/
theorem startedState_inv (h : HostInputs) {m : Memory} (hm : m.Legal) : (startedState h m).Inv where
  memCanonical := hm.canonical
  ccOneHot := .inr (.inl rfl)
  kbsrLegal := hm.kbsr
  kbdrLegal := hm.kbdr
  exitedStopped := Phase.noConfusion
  sinkErrorExited := Bool.noConfusion
  stopStopped := Bool.noConfusion
  causeKnown := iff_of_true rfl rfl

theorem reset_inv : State.reset.Inv where
  memCanonical := rfl
  ccOneHot := .inr (.inl rfl)
  kbsrLegal := .inl rfl
  kbdrLegal := rfl
  exitedStopped := Phase.noConfusion
  sinkErrorExited := Bool.noConfusion
  stopStopped := Bool.noConfusion
  causeKnown := iff_of_true rfl rfl

/-- Settles O49: the loader writes below the device cells and keeps the canonical form. -/
theorem resetMeetsInvariant : Obligations.ResetMeetsInvariant := by
  refine ⟨reset_inv, fun image h s hs => ?_⟩
  obtain ⟨m, hl, rfl⟩ := start_ok_cases hs
  exact startedState_inv h (loadImage_legal Memory.legal_nil hl)

theorem reg_of_regs_zero {s : State} (h : s.regs = Vector.replicate 8 0x0000#16) (r : Reg) : s.reg r = 0x0000#16 := by
  simp [State.reg, h]

/-- Settles O60: the fields of State.reset, and its empty list of cells. -/
theorem resetValues : Obligations.ResetValues :=
  ⟨reg_of_regs_zero rfl, rfl, rfl, rfl, rfl, rfl, rfl, fun _ => rfl, rfl⟩

/-- On its turn the keyboard agent of a machine without a stop request fills an empty buffer. -/
theorem step_keyboard_puts {s : State} {b : Byte} {rest : List Byte} (ht : turnOf s = .keyboard) (hk : s.keyBuf = none)
    (hi : s.kbdIn = b :: rest) (hs : s.stopRequested = false) :
    step s = .next { takeTurn s with keyBuf := some b, kbdIn := rest } := by
  rw [step, machineStep, ht]
  exact congrArg _ (keyAgentStep_puts (takeTurn s) b rest hk hi (.inl hs))

/-- Settles O59: the start state is written out, and the loader's words are below the device cells. -/
theorem startSetsEveryState : Obligations.StartSetsEveryState := by
  intro image h
  rcases loadImage_cases image [] with ⟨hlen, hl⟩ | ⟨hi, lo, b0, b1, rest, rfl, hl⟩
  · exact ⟨fun _ => start_of_error h hl, fun h4 => absurd hlen (by omega)⟩
  · refine ⟨fun hlen => absurd hlen (by simp), fun _ => ⟨_, start_of_ok h hl, rfl, rfl, rfl, rfl, rfl, rfl, rfl,
      loadWords_read_of_ge _ _ _ (by decide), loadWords_read_of_ge _ _ _ (by decide), hl, fun hz => ?_, fun hu r => ?_,
      fun b more hb ht => step_keyboard_puts ht rfl hb rfl, ?_⟩⟩
    · exact reg_of_regs_zero (by simp [startedState, startRegs, hz])
    · simp [State.reg, startedState, startRegs, hu]
    · rintro hi' lo' c0 c1 origin himage rfl hcap
      obtain ⟨rfl, rfl, rfl, rfl, rfl⟩ : hi = hi' ∧ lo = lo' ∧ b0 = c0 ∧ b1 = c1 ∧ rest = [] := by simpa using himage
      have hread (a : Word) :
          (startedState h (loadWords (bigEndian hi lo) [b0, b1] [])).memAt a =
            if a = hi ++ lo then b0 ++ b1 else 0x0000#16 := by
        rw [loadWords_pair (a := bigEndian hi lo) hcap]
        exact Memory.read_write [] (hi ++ lo) (b0 ++ b1) a
      exact ⟨by rw [hread, if_pos rfl], fun a ha => by rw [hread, if_neg ha]⟩

end Sys2Proof.Machine
end

section
/-! PROOFS. Who changes a word of memory (20_memory R51 to R54, R59, R62). -/

namespace Sys2Proof.Machine

/-! ## MemRead and MemWrite -/

/-- Settles O7: MemRead is the raw word, with the side effect that `afterRead` says. -/
theorem memReadClearsReadyAtKbdr : Obligations.MemReadClearsReadyAtKbdr := by
  refine fun s a => ⟨memRead_fst s a, ?_, fun ha => (memRead_snd s a).trans (if_neg ha), memRead_frame s a⟩
  rintro rfl
  exact ⟨(memRead_memAt s _ _).trans (if_pos ⟨rfl, rfl⟩),
    fun b hb => (memRead_memAt s _ b).trans (if_neg fun h => hb h.2)⟩

theorem memWrite_of_device {a : Word} (ha : a = 0xFE00#16 ∨ a = 0xFE02#16) (s : State) (v : Word) :
    memWrite s a v = s := if_pos ha

/-- Settles O8: a device cell drops the write, and any other address reads as the value afterwards. -/
theorem memWriteStoresOrDrops : Obligations.MemWriteStoresOrDrops := by
  refine fun s a v => ⟨fun ha => memWrite_of_device ha s v, fun hs hd => ⟨?_, fun b hb => ?_, memWrite_frame s a v⟩⟩
  · exact (memWrite_memAt s a v a).trans (if_pos ⟨rfl, hs, hd⟩)
  · exact (memWrite_memAt s a v b).trans (if_neg fun h => hb h.1)

/-! ## Reads change memory only by clearing READY -/

/-- From s to t memory is the same, but KBSR may have lost READY: what any row of MemReads does. -/
structure AtMostClearsReady (s t : State) : Prop where
  kbsr : t.memAt 0xFE00#16 = s.memAt 0xFE00#16 ∨ t.memAt 0xFE00#16 = s.memAt 0xFE00#16 &&& 0x7FFF#16
  other : ∀ b, b ≠ 0xFE00#16 → t.memAt b = s.memAt b

namespace AtMostClearsReady

variable {s t u : State}

theorem of_mem_eq (h : t.mem = s.mem) : AtMostClearsReady s t :=
  ⟨.inl (congrArg (Memory.read · 0xFE00#16) h), fun b _ => congrArg (Memory.read · b) h⟩

/-- Clearing READY twice is clearing it once. -/
protected theorem trans (h : AtMostClearsReady s t) (h' : AtMostClearsReady t u) : AtMostClearsReady s u where
  kbsr := by
    rcases h.kbsr with hk | hk <;> rcases h'.kbsr with hk' | hk' <;> rw [hk', hk]
    · exact .inl rfl
    · exact .inr rfl
    · exact .inr rfl
    · exact .inr (by rw [BitVec.and_assoc, BitVec.and_self])
  other b hb := (h'.other b hb).trans (h.other b hb)

theorem memRead (s : State) (a : Word) : AtMostClearsReady s (memRead s a).2 where
  kbsr := by
    rw [memRead_memAt, afterRead]
    split
    · exact .inr rfl
    · exact .inl rfl
  other b hb := by rw [memRead_memAt, afterRead, if_neg fun h => hb h.2]

theorem loadFrom (r : Reg) (ea : Word) (s : State) : AtMostClearsReady s (loadFrom r ea s) :=
  (memRead s ea).trans (of_mem_eq rfl)

theorem readRun (a : Word) (s : State) (n : Nat) : AtMostClearsReady s (readRun a s n) := by
  induction n with
  | zero => exact of_mem_eq rfl
  | succ n ih => exact ih.trans (memRead _ _)

/-- A word that did change is KBSR, which lost READY. -/
theorem kbsr_of_ne (h : AtMostClearsReady s t) {a : Word} (ha : t.memAt a ≠ s.memAt a) :
    a = 0xFE00#16 ∧ t.memAt a = s.memAt a &&& 0x7FFF#16 := by
  by_cases hk : a = 0xFE00#16
  · subst hk
    exact ⟨rfl, h.kbsr.resolve_left ha⟩
  · exact absurd (h.other a hk) ha

end AtMostClearsReady

/-! ## Instructions -/

/-- ST, STI and STR, the instructions that call MemWrite. -/
def IsStore (i : Instr) : Prop := (∃ r o, i = .st r o) ∨ (∃ r o, i = .sti r o) ∨ ∃ r b o, i = .str r b o

/-- What an effect does to memory: some reads, and in a store one MemWrite after them. -/
theorem Effect.mem {i : Instr} {s t : State} (h : Effect i s t) :
    AtMostClearsReady s t ∨ (IsStore i ∧ ∃ u p v, AtMostClearsReady s u ∧ t = memWrite u p v) := by
  cases h with
  | load r ea => exact .inl (.loadFrom r ea s)
  | loadIndirect r a p => exact .inl ((AtMostClearsReady.memRead s a).trans (.loadFrom r p _))
  | store ea v hi => exact .inr ⟨hi.imp_right .inr, s, ea, v, .of_mem_eq rfl, rfl⟩
  | storeIndirect a p v hi => exact .inr ⟨.inr (.inl hi), (memRead s a).2, p, v, .memRead s a, rfl⟩
  | string n bs => exact .inl ((AtMostClearsReady.readRun _ s n).trans (.of_mem_eq rfl))
  | stringFails n bs => exact .inl ((AtMostClearsReady.readRun _ s n).trans (.of_mem_eq rfl))
  | outputThenHalt bs => exact .inl (.of_mem_eq (by rw [clearRunning_eq]; rfl))
  | operate | jump | call | nothing | waitForKey | output | outputFails | outputThenWait =>
    exact .inl (.of_mem_eq rfl)

/-- Settles O54: a changed word is KBSR after the instruction's reads, or the plain word its MemWrite stored. -/
theorem onlyStoresChangeMemory : Obligations.OnlyStoresChangeMemory := by
  intro i s t a h ha
  rcases (exec_effect i s t h).mem with hr | ⟨hi, u, p, v, hr, rfl⟩
  · exact .inl (hr.kbsr_of_ne ha)
  · rw [memWrite_memAt] at ha ⊢
    split at ha
    case isTrue hw =>
      obtain ⟨rfl, hs, hd⟩ := hw
      exact .inr ⟨hs, hd, hi⟩
    case isFalse hw =>
      rw [if_neg hw]
      exact .inl (hr.kbsr_of_ne ha)

/-- No instruction changes KBDR. -/
theorem exec_kbdr {i : Instr} {s t : State} (h : exec i s = .next t) : t.kbdr = s.kbdr := by
  by_contra hne
  rcases onlyStoresChangeMemory i s t kbdrAddr h hne with ⟨hk, -⟩ | ⟨-, hk, -⟩
  · exact absurd hk (by decide)
  · exact hk rfl

/-- Fetch, PC increment and execution leave KBDR alone. -/
theorem fetchExecute_kbdr {s t : State} (h : fetchExecute s = .next t) : t.kbdr = s.kbdr :=
  (exec_kbdr h).trans ((AtMostClearsReady.memRead s s.pc).other kbdrAddr (by decide))

end Sys2Proof.Machine
end

section
/-! PROOFS. Where a key byte goes: from the input to the key buffer, and from there to one consumer (20_memory R63,
60_exceptions R240, R242, R243). -/

namespace Sys2Proof.Machine

/-- The key bytes on their way: the key buffer, and the input behind it. -/
def State.keys (s : State) : Option Byte × List Byte := (s.keyBuf, s.kbdIn)

/-! ## What leaves the key bytes alone -/

@[simp] theorem memRead_keys (s : State) (a : Word) : (memRead s a).2.keys = s.keys := by rw [memRead_frame]; rfl
@[simp] theorem memWrite_keys (s : State) (a v : Word) : (memWrite s a v).keys = s.keys := by rw [memWrite_frame]; rfl
@[simp] theorem readRun_keys (a : Word) (s : State) (n : Nat) : (readRun a s n).keys = s.keys := by
  rw [readRun_frame]; rfl
@[simp] theorem loadFrom_keys (r : Reg) (ea : Word) (s : State) : (loadFrom r ea s).keys = s.keys := memRead_keys s ea
@[simp] theorem clearRunning_keys (c : StopCause) (s : State) : (clearRunning c s).keys = s.keys := by
  rw [clearRunning_eq]; rfl

@[simp] theorem cancelWait_keys (s : State) : (cancelWait s).keys = s.keys := by
  rcases cancelWait_cases s with h | ⟨-, h⟩ <;> rw [h]
  rfl

@[simp] theorem stopRequest_keys (s : State) : (stopRequest s).keys = s.keys := by
  rcases stopRequest_cases s with ⟨-, h⟩ | ⟨-, h⟩ <;> rw [h]
  exact clearRunning_keys .stopRequest s

/-- No instruction takes a key byte: GETC and IN take theirs in the step that ends their wait. -/
theorem Effect.keys {i : Instr} {s t : State} (h : Effect i s t) : t.keys = s.keys := by
  cases h with
  | load r ea => exact loadFrom_keys r ea s
  | loadIndirect r a p => exact (loadFrom_keys r p _).trans (memRead_keys s a)
  | store ea v => exact memWrite_keys s ea v
  | storeIndirect a p v => exact (memWrite_keys _ p v).trans (memRead_keys s a)
  | string n bs => exact readRun_keys _ s n
  | stringFails n bs => exact readRun_keys _ s n
  | outputThenHalt bs => exact clearRunning_keys .halt (accepted s bs)
  | operate | jump | call | nothing | waitForKey | output | outputFails | outputThenWait => rfl

theorem fetchExecute_keys {s t : State} (h : fetchExecute s = .next t) : t.keys = s.keys :=
  (exec_effect _ _ _ h).keys.trans (memRead_keys s s.pc)

/-! ## What moves a key byte -/

/-- From s to t the key bytes stay the same row, or the byte in the buffer went to the consumer of the phase: to KBDR,
or to the GETC or IN that waits. -/
def KeyByteMove (s t : State) : Prop :=
  t.keyBuf.toList ++ t.kbdIn = s.keyBuf.toList ++ s.kbdIn ∨
  ∃ b, s.keyBuf = some b ∧ t.keyBuf = none ∧ t.kbdIn = s.kbdIn ∧
    ((s.phase = .boundary ∧ t.memAt 0xFE02#16 = b.setWidth 16) ∨
      (s.phase = .waitKey .getc ∧ t.reg 0#3 = b.setWidth 16) ∨
      (s.phase = .waitKey .input ∧ (t.sinkError = true ∨ t.reg 0#3 = b.setWidth 16)))

namespace KeyByteMove

variable {s t : State}

theorem of_keys_eq (h : t.keys = s.keys) : KeyByteMove s t :=
  .inl (congrArg (fun k => k.1.toList ++ k.2) h)

/-- An iteration stages the byte into KBDR or keeps it, and its instruction leaves both alone. -/
theorem iteration (hp : s.phase = .boundary) (h : fetchExecute (keyboardService s) = .next t) : KeyByteMove s t := by
  have hkeys := fetchExecute_keys h
  have hkbdr := fetchExecute_kbdr h
  rcases keyboardService_cases s with he | ⟨b, hb, -, he⟩ <;> rw [he] at hkeys hkbdr
  · exact of_keys_eq hkeys
  · have hstaged : (stageByte b s).kbdr = zext8 b := (stageByte_memAt b s _).trans (if_pos rfl)
    exact .inr ⟨b, hb, congrArg Prod.fst hkeys, congrArg Prod.snd hkeys, .inl ⟨hp, hkbdr.trans hstaged⟩⟩

/-- The core's step in a key wait takes the byte unless it cancels or holds; only the echo of IN can fail. -/
theorem waitStep {r : WaitRoutine} (hp : s.phase = .waitKey r) : KeyByteMove s (waitStep r s) := by
  rcases waitStep_cases r s with ⟨-, he⟩ | ⟨-, he⟩ | ⟨b, hb, ⟨rfl, he⟩ | he⟩ <;> rw [he]
  · exact of_keys_eq (cancelWait_keys s)
  · exact of_keys_eq rfl
  · exact .inr ⟨b, hb, rfl, rfl, .inr (.inr ⟨hp, .inl rfl⟩)⟩
  · refine .inr ⟨b, hb, rfl, rfl, .inr ?_⟩
    cases r with
    | getc => exact .inl ⟨hp, deliverKey_reg b _ 0#3⟩
    | input => exact .inr ⟨hp, .inr (deliverKey_reg b _ 0#3)⟩

/-- The keyboard agent moves the next input byte up into an empty buffer. -/
theorem keyAgentStep (s : State) : KeyByteMove s (keyAgentStep s) := by
  rcases keyAgentStep_cases s with he | ⟨b, rest, hb, hi, -, he⟩ <;> rw [he]
  · exact of_keys_eq rfl
  · exact .inl (by simp [hb, hi])

end KeyByteMove

/-- Settles O56: by the cases of a step, of which an iteration and the end of a key wait consume the byte. -/
theorem eachKeyByteTakenOnce : Obligations.EachKeyByteTakenOnce := by
  intro s t h
  -- taking the turn leaves the key bytes and the phase alone
  change KeyByteMove (takeTurn s) t
  rcases step_cases s t h with ⟨-, hp, -, hf⟩ | ⟨-, -, -, rfl⟩ | ⟨r, -, hp, rfl⟩ | ⟨-, -, rfl⟩ | ⟨-, rfl⟩ | ⟨-, rfl⟩ |
    ⟨-, rfl⟩
  · exact .iteration hp hf
  · exact .of_keys_eq rfl
  · exact .waitStep hp
  · exact .of_keys_eq rfl
  · exact .of_keys_eq (cancelWait_keys _)
  · exact .keyAgentStep _
  · exact .of_keys_eq (stopRequest_keys _)

end Sys2Proof.Machine
end

section
/-! PROOFS. Words as rows of fields, and which bits of a masked word a field keeps (30_encoding R81 to R85). -/

namespace Sys2Proof

/-! ## Rows of fields, of any widths -/

theorem eq_append_iff {n k : Nat} {x : BitVec (n + k)} (hi : BitVec n) (lo : BitVec k) :
    x = hi ++ lo ↔ x.extractLsb' k n = hi ∧ x.extractLsb' 0 k = lo := by
  constructor
  · rintro rfl
    exact ⟨BitVec.extractLsb'_append_eq_left, BitVec.extractLsb'_append_eq_right⟩
  · rintro ⟨rfl, rfl⟩
    exact BitVec.extractLsb'_append_extractLsb'.symm

theorem extractLsb'_eq_append_iff {w s n k : Nat} {x : BitVec w} (hi : BitVec n) (lo : BitVec k) :
    x.extractLsb' s (n + k) = hi ++ lo ↔ x.extractLsb' (s + k) n = hi ∧ x.extractLsb' s k = lo := by
  rw [← BitVec.extractLsb'_append_extractLsb'_eq_extractLsb' rfl, eq_append_iff,
    BitVec.extractLsb'_append_eq_left, BitVec.extractLsb'_append_eq_right]

theorem eq_append₃_iff {n m k : Nat} {x : BitVec (n + m + k)} (a : BitVec n) (b : BitVec m) (c : BitVec k) :
    x = a ++ b ++ c ↔ x.extractLsb' (k + m) n = a ∧ x.extractLsb' k m = b ∧ x.extractLsb' 0 k = c := by
  rw [eq_append_iff, extractLsb'_eq_append_iff, and_assoc]

theorem eq_append₄_iff {n m k l : Nat} {x : BitVec (n + m + k + l)} (a : BitVec n) (b : BitVec m) (c : BitVec k)
    (d : BitVec l) :
    x = a ++ b ++ c ++ d ↔
      x.extractLsb' (l + k + m) n = a ∧ x.extractLsb' (l + k) m = b ∧ x.extractLsb' l k = c ∧
        x.extractLsb' 0 l = d := by
  rw [eq_append_iff, extractLsb'_eq_append_iff, extractLsb'_eq_append_iff, and_assoc, and_assoc]

theorem eq_append₅_iff {n m k l j : Nat} {x : BitVec (n + m + k + l + j)} (a : BitVec n) (b : BitVec m) (c : BitVec k)
    (d : BitVec l) (e : BitVec j) :
    x = a ++ b ++ c ++ d ++ e ↔
      x.extractLsb' (j + l + k + m) n = a ∧ x.extractLsb' (j + l + k) m = b ∧ x.extractLsb' (j + l) k = c ∧
        x.extractLsb' j l = d ∧ x.extractLsb' 0 j = e := by
  rw [eq_append_iff, extractLsb'_eq_append_iff, extractLsb'_eq_append_iff, extractLsb'_eq_append_iff, and_assoc,
    and_assoc, and_assoc]

/-! ## The layouts of 30_encoding R85 -/

section
variable {w : Word} (o : BitVec 4)

theorem eq_row_3_9_iff (a : BitVec 3) (b : BitVec 9) :
    w = o ++ a ++ b ↔ opcodeField w = o ∧ field11to9 w = a ∧ off9Field w = b := eq_append₃_iff o a b

theorem eq_row_1_11_iff (b : BitVec 11) :
    w = o ++ 0b1#1 ++ b ↔ opcodeField w = o ∧ w[11] = true ∧ off11Field w = b := by
  rw [BitVec.getElem_eq_extractLsb', beq_iff_eq]
  exact eq_append₃_iff o 0b1#1 b

theorem eq_row_4_8_iff (x : BitVec 4) (v : BitVec 8) :
    w = o ++ x ++ v ↔ opcodeField w = o ∧ w.extractLsb' 8 4 = x ∧ trapvect8Field w = v := eq_append₃_iff o x v

theorem eq_row_12_iff (x : BitVec 12) : w = o ++ x ↔ opcodeField w = o ∧ w.extractLsb' 0 12 = x := eq_append_iff o x

theorem eq_row_3_3_6_iff (a b : BitVec 3) (c : BitVec 6) :
    w = o ++ a ++ b ++ c ↔ opcodeField w = o ∧ field11to9 w = a ∧ field8to6 w = b ∧ off6Field w = c :=
  eq_append₄_iff o a b c

theorem eq_row_3_3_3_3_iff (a b f c : BitVec 3) :
    w = o ++ a ++ b ++ f ++ c ↔
      opcodeField w = o ∧ field11to9 w = a ∧ field8to6 w = b ∧ w.extractLsb' 3 3 = f ∧ sr2Field w = c :=
  eq_append₅_iff o a b f c

theorem eq_row_3_3_1_5_iff (a b : BitVec 3) (c : BitVec 5) :
    w = o ++ a ++ b ++ 0b1#1 ++ c ↔
      opcodeField w = o ∧ field11to9 w = a ∧ field8to6 w = b ∧ w[5] = true ∧ imm5Field w = c := by
  rw [BitVec.getElem_eq_extractLsb', beq_iff_eq]
  exact eq_append₅_iff o a b 0b1#1 c

end

/-- The encoder's 000 in a register form holds the 0 that selects it. -/
theorem getLsbD_of_extractLsb'_eq_zero {w : Word} {s : Nat} (h : w.extractLsb' s 3 = 0b000#3) :
    w.getLsbD (s + 2) = false := by
  simpa using congrArg (BitVec.getLsbD · 2) h

/-! ## Slices of a masked word, and of a word with bits flipped -/

section
variable {w m : Word} {s n : Nat}

theorem slice_keep (h : m.extractLsb' s n = BitVec.allOnes n) :
    (w &&& m).extractLsb' s n = w.extractLsb' s n := by
  rw [BitVec.extractLsb'_and, h, BitVec.and_allOnes]

theorem slice_clear (h : m.extractLsb' s n = 0#n) : (w &&& m).extractLsb' s n = 0#n := by
  rw [BitVec.extractLsb'_and, h, BitVec.and_zero]

/-- A format bit that is 0, with the two ignored bits below it cleared. -/
theorem slice_clear_below (h : m.extractLsb' s 3 = 0b100#3) (hw : w.getLsbD (s + 2) = false) :
    (w &&& m).extractLsb' s 3 = 0b000#3 := by
  have hbit : ∀ f : BitVec 3, f.getLsbD 2 = false → f &&& 0b100#3 = 0b000#3 := by decide
  rw [BitVec.extractLsb'_and, h]
  exact hbit _ (by simpa using hw)

theorem slice_flip {x : Word} (h : m.extractLsb' s n = 0#n) :
    (w ^^^ (x &&& m)).extractLsb' s n = w.extractLsb' s n := by
  rw [BitVec.extractLsb'_xor, slice_clear h, BitVec.xor_zero]

theorem opcodeField_keep {o : BitVec 4} (ho : opcodeField w = o) (h : opcodeField m = 0b1111#4) :
    opcodeField (w &&& m) = o := (slice_keep h).trans ho

theorem opcodeField_flip {x : Word} {o : BitVec 4} (ho : opcodeField w = o) (h : opcodeField m = 0b0000#4) :
    opcodeField (w ^^^ (x &&& m)) = o := (slice_flip h).trans ho

theorem bit_flip {x : Word} {i : Nat} (hw : w.getLsbD i = false) (h : m.getLsbD i = false) :
    (w ^^^ (x &&& m)).getLsbD i = false := by
  rw [BitVec.getLsbD_xor, BitVec.getLsbD_and, h, hw, Bool.and_false, Bool.xor_false]

end

end Sys2Proof
end

section
/-! PROOFS. The decoder and the encoder agree (30_encoding R81 to R90). -/

namespace Sys2Proof

/-! ## TRAP -/

theorem isServiceVector_iff (v : BitVec 8) :
    isServiceVector v = true ↔
      v = 0x20#8 ∨ v = 0x21#8 ∨ v = 0x22#8 ∨ v = 0x23#8 ∨ v = 0x24#8 ∨ v = 0x25#8 := by
  simp only [isServiceVector, Bool.and_eq_true, decide_eq_true_eq, BitVec.le_def, BitVec.toNat_eq, BitVec.toNat_ofNat]
  omega

theorem decodeTrap_of_not_service {v : BitVec 8} (h : isServiceVector v = false) : decodeTrap v = .trap v := by
  rw [← Bool.not_eq_true, isServiceVector_iff] at h
  simp only [not_or] at h
  obtain ⟨h20, h21, h22, h23, h24, h25⟩ := h
  simp only [decodeTrap, h20, h21, h22, h23, h24, h25, if_false]

/-- The six routines have constructors of their own, and the dispatcher has every other vector. -/
theorem decodeTrap_spec (v : BitVec 8) :
    (decodeTrap v).wellFormed = true ∧ encode (decodeTrap v) = 0b1111#4 ++ 0b0000#4 ++ v := by
  cases hv : isServiceVector v with
  | false =>
    rw [decodeTrap_of_not_service hv]
    exact ⟨by simp [Instr.wellFormed, hv], rfl⟩
  | true =>
    rcases (isServiceVector_iff v).1 hv with rfl | rfl | rfl | rfl | rfl | rfl <;> exact ⟨rfl, rfl⟩

/-! ## Decoding an encoding -/

theorem decode_of_eq_encode {w : Word} {i : Instr} (hi : i.wellFormed = true) (hw : w = encode i) : decode w = i := by
  cases i with
  | br nzp off9 | ld dr off9 | st sr off9 | ldi dr off9 | sti sr off9 | lea dr off9 =>
    simp [decode, (eq_row_3_9_iff _ _ _).1 hw]
  | ldr dr base off6 | str sr base off6 | not dr sr => simp [decode, (eq_row_3_3_6_iff _ _ _ _).1 hw]
  | jmp base =>
    have hb : base ≠ 7#3 := by simpa [Instr.wellFormed] using hi
    simp [decode, (eq_row_3_3_6_iff _ _ _ _).1 hw, hb]
  | jsrr base =>
    obtain ⟨ho, hf, hb, -⟩ := (eq_row_3_3_6_iff _ _ _ _).1 hw
    have h11 : w[11] = false := getLsbD_of_extractLsb'_eq_zero hf
    simp [decode, ho, hb, h11]
  | jsr off11 => simp [decode, (eq_row_1_11_iff _ _).1 hw]
  | add dr sr1 sr2 | and dr sr1 sr2 =>
    obtain ⟨ho, hd, h1, hf, h2⟩ := (eq_row_3_3_3_3_iff _ _ _ _ _).1 hw
    have h5 : w[5] = false := getLsbD_of_extractLsb'_eq_zero hf
    simp [decode, ho, hd, h1, h2, h5]
  | addi dr sr1 imm5 | andi dr sr1 imm5 => simp [decode, (eq_row_3_3_1_5_iff _ _ _ _).1 hw]
  | trap v =>
    have hv : isServiceVector v = false := by simpa [Instr.wellFormed] using hi
    simp [decode, (eq_row_4_8_iff _ _ _).1 hw, decodeTrap_of_not_service hv]
  | rti | ret | res | trapGetc | trapOut | trapPuts | trapIn | trapPutsp | trapHalt => rw [hw]; rfl

/-- Settles O1: each encoding is a row of the instruction's fields, and the decoder reads the same fields back. -/
theorem decodeEncodeRoundTrip : Obligations.DecodeEncodeRoundTrip := fun _ hi => decode_of_eq_encode hi rfl

end Sys2Proof
end

section
/-! PROOFS. What a word reads as, and what its ignored bits are (30_encoding R85, R88, R89). -/

namespace Sys2Proof

/-- The decoder and its ignored bits, format by format: the word w reads as the instruction, whatever its bits in the
mask. -/
inductive Reading (w : Word) : Instr → Word → Prop where
  | br (ho : opcodeField w = 0b0000#4) : Reading w (.br (field11to9 w) (off9Field w)) 0x0000#16
  | add (ho : opcodeField w = 0b0001#4) (h5 : w[5] = false) :
      Reading w (.add (field11to9 w) (field8to6 w) (sr2Field w)) 0x0018#16
  | addi (ho : opcodeField w = 0b0001#4) (h5 : w[5] = true) :
      Reading w (.addi (field11to9 w) (field8to6 w) (imm5Field w)) 0x0000#16
  | ld (ho : opcodeField w = 0b0010#4) : Reading w (.ld (field11to9 w) (off9Field w)) 0x0000#16
  | st (ho : opcodeField w = 0b0011#4) : Reading w (.st (field11to9 w) (off9Field w)) 0x0000#16
  | jsr (ho : opcodeField w = 0b0100#4) (h11 : w[11] = true) : Reading w (.jsr (off11Field w)) 0x0000#16
  | jsrr (ho : opcodeField w = 0b0100#4) (h11 : w[11] = false) : Reading w (.jsrr (field8to6 w)) 0x063F#16
  | and (ho : opcodeField w = 0b0101#4) (h5 : w[5] = false) :
      Reading w (.and (field11to9 w) (field8to6 w) (sr2Field w)) 0x0018#16
  | andi (ho : opcodeField w = 0b0101#4) (h5 : w[5] = true) :
      Reading w (.andi (field11to9 w) (field8to6 w) (imm5Field w)) 0x0000#16
  | ldr (ho : opcodeField w = 0b0110#4) : Reading w (.ldr (field11to9 w) (field8to6 w) (off6Field w)) 0x0000#16
  | str (ho : opcodeField w = 0b0111#4) : Reading w (.str (field11to9 w) (field8to6 w) (off6Field w)) 0x0000#16
  | rti (ho : opcodeField w = 0b1000#4) : Reading w .rti 0x0FFF#16
  | not (ho : opcodeField w = 0b1001#4) : Reading w (.not (field11to9 w) (field8to6 w)) 0x003F#16
  | ldi (ho : opcodeField w = 0b1010#4) : Reading w (.ldi (field11to9 w) (off9Field w)) 0x0000#16
  | sti (ho : opcodeField w = 0b1011#4) : Reading w (.sti (field11to9 w) (off9Field w)) 0x0000#16
  | jmp (ho : opcodeField w = 0b1100#4) (hb : field8to6 w ≠ 7#3) : Reading w (.jmp (field8to6 w)) 0x0E3F#16
  | ret (ho : opcodeField w = 0b1100#4) (hb : field8to6 w = 7#3) : Reading w .ret 0x0E3F#16
  | res (ho : opcodeField w = 0b1101#4) : Reading w .res 0x0FFF#16
  | lea (ho : opcodeField w = 0b1110#4) : Reading w (.lea (field11to9 w) (off9Field w)) 0x0000#16
  | trap (ho : opcodeField w = 0b1111#4) : Reading w (decodeTrap (trapvect8Field w)) 0x0F00#16

theorem opcode_cases : ∀ o : BitVec 4,
    o = 0b0000#4 ∨ o = 0b0001#4 ∨ o = 0b0010#4 ∨ o = 0b0011#4 ∨ o = 0b0100#4 ∨ o = 0b0101#4 ∨ o = 0b0110#4 ∨
    o = 0b0111#4 ∨ o = 0b1000#4 ∨ o = 0b1001#4 ∨ o = 0b1010#4 ∨ o = 0b1011#4 ∨ o = 0b1100#4 ∨ o = 0b1101#4 ∨
    o = 0b1110#4 ∨ o = 0b1111#4 := by decide

theorem reading_decode (w : Word) : Reading w (decode w) (ignoredBits w) := by
  rcases opcode_cases (opcodeField w) with ho | ho | ho | ho | ho | ho | ho | ho | ho | ho | ho | ho | ho | ho | ho | ho
  · simpa [decode, ignoredBits, ho] using Reading.br ho
  · cases h5 : w[5]
    · simpa [decode, ignoredBits, ho, h5] using Reading.add ho h5
    · simpa [decode, ignoredBits, ho, h5] using Reading.addi ho h5
  · simpa [decode, ignoredBits, ho] using Reading.ld ho
  · simpa [decode, ignoredBits, ho] using Reading.st ho
  · cases h11 : w[11]
    · simpa [decode, ignoredBits, ho, h11] using Reading.jsrr ho h11
    · simpa [decode, ignoredBits, ho, h11] using Reading.jsr ho h11
  · cases h5 : w[5]
    · simpa [decode, ignoredBits, ho, h5] using Reading.and ho h5
    · simpa [decode, ignoredBits, ho, h5] using Reading.andi ho h5
  · simpa [decode, ignoredBits, ho] using Reading.ldr ho
  · simpa [decode, ignoredBits, ho] using Reading.str ho
  · simpa [decode, ignoredBits, ho] using Reading.rti ho
  · simpa [decode, ignoredBits, ho] using Reading.not ho
  · simpa [decode, ignoredBits, ho] using Reading.ldi ho
  · simpa [decode, ignoredBits, ho] using Reading.sti ho
  · by_cases hb : field8to6 w = 7#3
    · simpa [decode, ignoredBits, ho, hb] using Reading.ret ho hb
    · simpa [decode, ignoredBits, ho, hb] using Reading.jmp ho hb
  · simpa [decode, ignoredBits, ho] using Reading.res ho
  · simpa [decode, ignoredBits, ho] using Reading.lea ho
  · simpa [decode, ignoredBits, ho] using Reading.trap ho

namespace Reading

variable {w m : Word} {i : Instr}

theorem wellFormed (h : Reading w i m) : i.wellFormed = true := by
  cases h with
  | jmp ho hb => simpa [Instr.wellFormed] using hb
  | trap ho => exact (decodeTrap_spec _).1
  | _ => rfl

/-- Every field of the layout is kept by the mask, and the ignored bits are the encoder's zeros. -/
theorem encode_eq (h : Reading w i m) : w &&& ~~~m = encode i := by
  cases h with
  | br ho | ld ho | st ho | ldi ho | sti ho | lea ho =>
    exact (eq_row_3_9_iff _ _ _).2 ⟨opcodeField_keep ho rfl, slice_keep rfl, slice_keep rfl⟩
  | ldr ho | str ho =>
    exact (eq_row_3_3_6_iff _ _ _ _).2 ⟨opcodeField_keep ho rfl, slice_keep rfl, slice_keep rfl, slice_keep rfl⟩
  | not ho =>
    exact (eq_row_3_3_6_iff _ _ _ _).2 ⟨opcodeField_keep ho rfl, slice_keep rfl, slice_keep rfl, slice_clear rfl⟩
  | jmp ho hb =>
    exact (eq_row_3_3_6_iff _ _ _ _).2 ⟨opcodeField_keep ho rfl, slice_clear rfl, slice_keep rfl, slice_clear rfl⟩
  | ret ho hb =>
    exact (eq_row_3_3_6_iff 0b1100#4 0b000#3 7#3 0#6).2
      ⟨opcodeField_keep ho rfl, slice_clear rfl, (slice_keep rfl).trans hb, slice_clear rfl⟩
  | jsrr ho h11 =>
    exact (eq_row_3_3_6_iff _ _ _ _).2
      ⟨opcodeField_keep ho rfl, slice_clear_below rfl h11, slice_keep rfl, slice_clear rfl⟩
  | jsr ho h11 =>
    exact (eq_row_1_11_iff _ _).2 ⟨opcodeField_keep ho rfl, by simpa using h11, slice_keep rfl⟩
  | add ho h5 | and ho h5 =>
    exact (eq_row_3_3_3_3_iff _ _ _ _ _).2
      ⟨opcodeField_keep ho rfl, slice_keep rfl, slice_keep rfl, slice_clear_below rfl h5, slice_keep rfl⟩
  | addi ho h5 | andi ho h5 =>
    exact (eq_row_3_3_1_5_iff _ _ _ _).2
      ⟨opcodeField_keep ho rfl, slice_keep rfl, slice_keep rfl, by simpa using h5, slice_keep rfl⟩
  | rti ho => exact (eq_row_12_iff 0b1000#4 0#12).2 ⟨opcodeField_keep ho rfl, slice_clear rfl⟩
  | res ho => exact (eq_row_12_iff 0b1101#4 0#12).2 ⟨opcodeField_keep ho rfl, slice_clear rfl⟩
  | trap ho =>
    rw [(decodeTrap_spec _).2]
    exact (eq_row_4_8_iff _ _ _).2 ⟨opcodeField_keep ho rfl, slice_clear rfl, slice_keep rfl⟩

end Reading

/-- Settles O2: the layouts keep every bit of a word but the ignored ones. -/
theorem encodeDecodeClearsIgnored : Obligations.EncodeDecodeClearsIgnored :=
  fun w => (reading_decode w).encode_eq.symm

theorem decode_wellFormed (w : Word) : (decode w).wellFormed = true := (reading_decode w).wellFormed

/-- Settles O4: a well-formed instruction is what its encoding decodes to, so two with one encoding are equal. -/
theorem everyWordHasOneReading : Obligations.EveryWordHasOneReading := by
  intro w
  refine ⟨decode_wellFormed w, fun i hi he => ?_⟩
  calc
    i = decode (encode i) := (decodeEncodeRoundTrip i hi).symm
    _ = decode (encode (decode w)) := by rw [he, encodeDecodeClearsIgnored w]
    _ = decode w := decodeEncodeRoundTrip _ (decode_wellFormed w)

/-! ## Ignored bits -/

/-- The reading of a word depends on its other bits only. -/
theorem decode_congr {v w : Word} (h : v &&& ~~~(ignoredBits v) = w &&& ~~~(ignoredBits w)) : decode v = decode w :=
  (everyWordHasOneReading w).2 _ (decode_wellFormed v) ((encodeDecodeClearsIgnored v).trans h)

/-- Flipping bits of a mask that both words ignore. -/
theorem decode_xor_ignored {w x m : Word} (hw : ignoredBits w = m) (hv : ignoredBits (w ^^^ (x &&& m)) = m) :
    decode (w ^^^ (x &&& m)) = decode w := by
  apply decode_congr
  rw [hv, hw]
  ext i hi
  cases hm : m[i] <;> simp [hm]

theorem ignoredBits_register_form {w : Word} (ho : opcodeField w = 0b0001#4 ∨ opcodeField w = 0b0101#4)
    (h5 : w[5] = false) : ignoredBits w = 0x0018#16 := by simp [ignoredBits, ho, h5]

theorem ignoredBits_jsrr {w : Word} (ho : opcodeField w = 0b0100#4) (h11 : w[11] = false) :
    ignoredBits w = 0x063F#16 := by simp [ignoredBits, ho, h11]

theorem ignoredBits_not {w : Word} (ho : opcodeField w = 0b1001#4) : ignoredBits w = 0x003F#16 := by
  simp [ignoredBits, ho]

theorem ignoredBits_jmp {w : Word} (ho : opcodeField w = 0b1100#4) : ignoredBits w = 0x0E3F#16 := by
  simp [ignoredBits, ho]

theorem ignoredBits_trap {w : Word} (ho : opcodeField w = 0b1111#4) : ignoredBits w = 0x0F00#16 := by
  simp [ignoredBits, ho]

theorem ignoredBits_no_op {w : Word} (ho : opcodeField w = 0b1000#4 ∨ opcodeField w = 0b1101#4) :
    ignoredBits w = 0x0FFF#16 := by
  rcases ho with ho | ho <;> simp [ignoredBits, ho]

/-- Settles O3: no ignored bit is one of those that select the format, so the flipped word ignores the same bits. -/
theorem ignoredBitsSelectNothing : Obligations.IgnoredBitsSelectNothing := by
  refine ⟨fun w x ho h5 => ?_, fun w x ho h11 => ?_, fun w x ho => ?_, fun w x ho => ?_, fun w x ho => ?_,
    fun w x ho => ?_, ?_⟩
  · exact decode_xor_ignored (ignoredBits_register_form ho h5)
      (ignoredBits_register_form (ho.imp (opcodeField_flip · rfl) (opcodeField_flip · rfl)) (bit_flip h5 rfl))
  · exact decode_xor_ignored (ignoredBits_jsrr ho h11) (ignoredBits_jsrr (opcodeField_flip ho rfl) (bit_flip h11 rfl))
  · exact decode_xor_ignored (ignoredBits_not ho) (ignoredBits_not (opcodeField_flip ho rfl))
  · exact decode_xor_ignored (ignoredBits_jmp ho) (ignoredBits_jmp (opcodeField_flip ho rfl))
  · exact decode_xor_ignored (ignoredBits_trap ho) (ignoredBits_trap (opcodeField_flip ho rfl))
  · exact decode_xor_ignored (ignoredBits_no_op ho)
      (ignoredBits_no_op (ho.imp (opcodeField_flip · rfl) (opcodeField_flip · rfl)))
  · rfl

/-- Settles O5, by evaluation: the twelve words are literals. -/
theorem specWordsDecode : Obligations.SpecWordsDecode := by
  unfold Obligations.SpecWordsDecode
  decide

end Sys2Proof
end

section
/-! PROOFS. The core's step at a boundary (30_encoding R100 to R103), and the word placed where it fetches. -/

namespace Sys2Proof.Machine

section
variable {s : State} (ht : turnOf s = .core) (hp : s.phase = .boundary)
include ht hp

theorem step_core_boundary : step s = iterate (takeTurn s) := by
  have hphase : (takeTurn s).phase = .boundary := hp
  simp only [step, machineStep, ht, agentStep, coreStep, hphase]

theorem step_running (hr : s.running = true) : step s = fetchExecute (keyboardService (takeTurn s)) :=
  (step_core_boundary ht hp).trans (if_pos hr)

theorem step_stopped (hr : s.running = false) : step s = .next { takeTurn s with phase := .exited } :=
  (step_core_boundary ht hp).trans (if_neg (Bool.eq_false_iff.1 hr))

end

theorem fetchExecute_eq (s : State) :
    fetchExecute s = exec (decode (s.memAt s.pc)) { (memRead s s.pc).2 with pc := s.pc + 1#16 } := by
  simp only [fetchExecute, memRead_fst, memRead_pc, State.setPc]

/-- Settles O39: the running branch of the iteration, with the fetch written out. -/
theorem stepRunsDecodedInstruction : Obligations.StepRunsDecodedInstruction := by
  rintro s u ht hp hr rfl
  rw [step_running ht hp hr, fetchExecute_eq]

/-- Settles O41: the stopped branch of the iteration comes before keyboard servicing and fetch. -/
theorem stoppedCoreExitsAtBoundary : Obligations.StoppedCoreExitsAtBoundary := fun _ => step_stopped

/-! ## The placed word -/

/-- Keyboard servicing changes the key buffer and memory only. -/
theorem keyboardService_frame (s : State) :
    keyboardService s = { s with keyBuf := (keyboardService s).keyBuf, mem := (keyboardService s).mem } := by
  rcases keyboardService_cases s with h | ⟨b, -, -, h⟩ <;> rw [h]
  rfl

/-- Keyboard servicing stages no byte over a word that is no device cell, and none from an empty buffer. -/
theorem keyboardService_memAt {s : State} {a : Word} (h : (a = kbsrAddr ∨ a = kbdrAddr) → s.keyBuf = none) :
    (keyboardService s).memAt a = s.memAt a := by
  rcases keyboardService_cases s with he | ⟨b, hb, -, he⟩
  · rw [he]
  · have hdev : ¬ (a = 0xFE00#16 ∨ a = 0xFE02#16) := fun ha => by simp [h ha] at hb
    obtain ⟨hs, hd⟩ := not_or.1 hdev
    rw [he, stageByte_memAt, if_neg hd, if_neg hs]

theorem placeFetchWord_memAt_pc (s : State) (w : Word) : (placeFetchWord s w).memAt s.pc = w :=
  (Memory.read_write s.mem s.pc w s.pc).trans (if_pos rfl)

/-- The word placed is the word the fetch finds, after keyboard servicing. -/
theorem keyboardService_placeFetchWord_memAt_pc (s : State) (w : Word) :
    (keyboardService (placeFetchWord s w)).memAt s.pc = w :=
  (keyboardService_memAt fun h => if_pos h).trans (placeFetchWord_memAt_pc s w)

theorem keyboardService_placeFetchWord_pc (s : State) (w : Word) :
    (keyboardService (placeFetchWord s w)).pc = s.pc := by
  rw [keyboardService_frame]; rfl

/-- The placed state is one O39 speaks of: the core's turn, at a boundary, with running set. -/
theorem step_placeFetchWord (s : State) (w : Word) :
    step (placeFetchWord s w) =
      exec (decode w) { (memRead (keyboardService (placeFetchWord s w)) s.pc).2 with pc := s.pc + 1#16 } := by
  rw [stepRunsDecodedInstruction (placeFetchWord s w) (keyboardService (placeFetchWord s w)) rfl rfl rfl rfl,
    keyboardService_placeFetchWord_pc, keyboardService_placeFetchWord_memAt_pc]

/-- Settles O40: the fetch finds the placed word, and keyboard servicing and MemRead change the key buffer and memory
only. -/
theorem placedWordRunsNext : Obligations.PlacedWordRunsNext := by
  intro s w hw
  have hw16 : w % 2 ^ 16 = w := Nat.mod_eq_of_lt hw
  rw [State.withFetchWord, decodeTableWord, hw16]
  refine ⟨_, step_placeFetchWord s _, rfl, ?_⟩
  rw [memRead_frame, keyboardService_frame]
  exact ⟨rfl, rfl, rfl, rfl, rfl, rfl, rfl, rfl⟩

end Sys2Proof.Machine
end

section
/-! PROOFS. The control transfers (40_control R120 to R127): the words that decode to them, and what they do to the PC
and to R7. -/

namespace Sys2Proof

/-! ## Decoding -/

section
variable {w : Word}

theorem decode_br (ho : opcodeField w = 0b0000#4) : decode w = .br (field11to9 w) (off9Field w) := if_pos ho

theorem decode_jsr (ho : opcodeField w = 0b0100#4) (h11 : w.getLsbD 11 = true) : decode w = .jsr (off11Field w) := by
  simp [decode, ho, show w[11] = _ from h11]

theorem decode_jsrr (ho : opcodeField w = 0b0100#4) (h11 : w.getLsbD 11 = false) :
    decode w = .jsrr (field8to6 w) := by
  simp [decode, ho, show w[11] = _ from h11]

theorem decode_jmp (ho : opcodeField w = 0b1100#4) (hb : field8to6 w ≠ 7#3) : decode w = .jmp (field8to6 w) := by
  simp [decode, ho, hb]

theorem decode_ret (ho : opcodeField w = 0b1100#4) (hb : field8to6 w = 7#3) : decode w = .ret := by
  simp [decode, ho, hb]

end

namespace Machine

/-! ## BR -/

section
variable {nzp : BitVec 3} {s : State} (off9 : BitVec 9)

theorem exec_br_taken (h : nzp &&& s.cc ≠ 0b000#3) :
    exec (.br nzp off9) s = .next (s.setPc (s.pc + off9.signExtend 16)) := congrArg Host.Outcome.next (if_pos h)

theorem exec_br_not_taken (h : nzp &&& s.cc = 0b000#3) : exec (.br nzp off9) s = .next s :=
  congrArg Host.Outcome.next (if_neg (not_not_intro h))

end

/-- The mask 111 keeps the one bit of a one-hot CC. -/
theorem full_mask_and_oneHot_ne_zero :
    ∀ c : BitVec 3, c = 0b001#3 ∨ c = 0b010#3 ∨ c = 0b100#3 → 0b111#3 &&& c ≠ 0b000#3 := by decide

/-- Settles O23: the mask 000 shares no bit with any CC, and 111 shares the one bit of a one-hot CC. -/
theorem brBranchesOnMask : Obligations.BrBranchesOnMask :=
  ⟨fun _ => decode_br, fun _ off9 _ => exec_br_taken off9, fun _ off9 _ => exec_br_not_taken off9,
    fun off9 _ => exec_br_not_taken off9 BitVec.zero_and,
    fun off9 s hcc => exec_br_taken off9 (full_mask_and_oneHot_ne_zero s.cc hcc)⟩

/-! ## JSR and JSRR -/

theorem writesReg_setReg (dr : Reg) (v : Word) (s : State) : WritesReg dr v s (s.setReg dr v) :=
  ⟨State.reg_setReg_same s dr v, fun r hr => (State.reg_setReg s dr r v).trans (if_neg hr)⟩

/-- The link written and then a jump: what JSR and JSRR have in common. -/
theorem writesReg_link_setPc (s : State) (a : Word) : WritesReg 7#3 s.pc s ((link s).setPc a) :=
  writesReg_setReg 7#3 s.pc s

/-- JSR's target is relative to the PC, which the link leaves alone. -/
theorem exec_jsr (off11 : BitVec 11) (s : State) :
    exec (.jsr off11) s = .next ((link s).setPc (s.pc + off11.signExtend 16)) := rfl

/-- JSRR reads its base after the link is written. -/
theorem exec_jsrr (base : Reg) (s : State) :
    exec (.jsrr base) s = .next ((link s).setPc ((link s).reg base)) := rfl

theorem link_reg (s : State) (r : Reg) : (link s).reg r = if r = 7#3 then s.pc else s.reg r :=
  State.reg_setReg s 7#3 r s.pc

/-- Settles O24: the link, then the jump. -/
theorem jsrLinksAndJumps : Obligations.JsrLinksAndJumps :=
  ⟨fun _ => decode_jsr, fun off11 s => ⟨_, exec_jsr off11 s, writesReg_link_setPc s _, rfl, rfl⟩⟩

/-- Settles O25: the base is read in the linked state, where R7 is the old PC and every other register is as before. -/
theorem jsrrLinksThenJumps : Obligations.JsrrLinksThenJumps :=
  ⟨fun _ => decode_jsrr, fun base s => ⟨_, exec_jsrr base s, writesReg_link_setPc s _,
    fun hb => (link_reg s base).trans (if_neg hb), fun hb => (link_reg s base).trans (if_pos hb), rfl⟩⟩

/-! ## JMP and RET -/

theorem exec_jmp (base : Reg) (s : State) : exec (.jmp base) s = .next (s.setPc (s.reg base)) := rfl

theorem exec_ret (s : State) : exec .ret s = exec (.jmp 7#3) s := rfl

/-- Settles O26: bits 8:6 of the word choose between JMP and RET, and RET is JMP through R7. -/
theorem jmpAndRetJump : Obligations.JmpAndRetJump :=
  ⟨fun _ => decode_jmp, fun _ => decode_ret, exec_jmp, fun s => ⟨(exec_ret s).trans (exec_jmp 7#3 s), exec_ret s⟩⟩

end Machine

end Sys2Proof
end

section
/-! PROOFS. The flag rule, and the operate instructions ADD, AND and NOT (41_operate R140 to R146): the words that decode
to them, and the register and CC they write. -/

namespace Sys2Proof

/-! ## Decoding -/

section
variable {w : Word}

theorem decode_add (ho : opcodeField w = 0b0001#4) (h5 : w.getLsbD 5 = false) :
    decode w = .add (field11to9 w) (field8to6 w) (sr2Field w) := by
  simp [decode, ho, show w[5] = _ from h5]

theorem decode_addi (ho : opcodeField w = 0b0001#4) (h5 : w.getLsbD 5 = true) :
    decode w = .addi (field11to9 w) (field8to6 w) (imm5Field w) := by
  simp [decode, ho, show w[5] = _ from h5]

theorem decode_and (ho : opcodeField w = 0b0101#4) (h5 : w.getLsbD 5 = false) :
    decode w = .and (field11to9 w) (field8to6 w) (sr2Field w) := by
  simp [decode, ho, show w[5] = _ from h5]

theorem decode_andi (ho : opcodeField w = 0b0101#4) (h5 : w.getLsbD 5 = true) :
    decode w = .andi (field11to9 w) (field8to6 w) (imm5Field w) := by
  simp [decode, ho, show w[5] = _ from h5]

theorem decode_not (ho : opcodeField w = 0b1001#4) : decode w = .not (field11to9 w) (field8to6 w) := by
  simp [decode, ho]

end

namespace Machine

/-! ## The flag rule -/

theorem flagOf_zero : flagOf 0x0000#16 = ccZro := rfl

theorem flagOf_of_negative {v : Word} (h0 : v ≠ 0x0000#16) (h15 : v.getLsbD 15 = true) : flagOf v = ccNeg :=
  (if_neg h0).trans (if_pos h15)

theorem flagOf_of_positive {v : Word} (h0 : v ≠ 0x0000#16) (h15 : v.getLsbD 15 = false) : flagOf v = ccPos :=
  (if_neg h0).trans (if_neg (Bool.eq_false_iff.mp h15))

/-- `flagOf` computes the code that `FlagsOf` describes. -/
theorem flagsOf_flagOf (v : Word) : FlagsOf (flagOf v) v :=
  ⟨fun h0 => h0 ▸ flagOf_zero, flagOf_of_negative, flagOf_of_positive⟩

/-- Settles O10: SetCC writes the flag of its value, and only CC. -/
theorem setCCFollowsSign : Obligations.SetCCFollowsSign := fun _ v => ⟨flagsOf_flagOf v, rfl⟩

/-! ## Writing a register with its flags -/

theorem writesReg_setRegFlags (dr : Reg) (v : Word) (s : State) : WritesReg dr v s (s.setRegFlags dr v) :=
  writesReg_setReg dr v s

/-- CC describes the register just written. -/
theorem flagsOf_setRegFlags (dr : Reg) (v : Word) (s : State) :
    FlagsOf (s.setRegFlags dr v).cc ((s.setRegFlags dr v).reg dr) :=
  flagsOf_flagOf _

/-- What the operate instructions have in common: DR and CC are written, and no other field. -/
theorem operates_of_exec_eq {i : Instr} {s : State} {dr : Reg} {v : Word} (h : exec i s = .next (s.setRegFlags dr v)) :
    ∃ t, exec i s = .next t ∧
      WritesReg dr v s t ∧ FlagsOf t.cc (t.reg dr) ∧ t = { s with regs := t.regs, cc := t.cc } :=
  ⟨_, h, writesReg_setRegFlags dr v s, flagsOf_setRegFlags dr v s, s.setRegFlags_frame dr v⟩

/-! ## ADD, AND and NOT -/

section
variable (dr sr1 sr2 sr : Reg) (imm5 : BitVec 5) (s : State)

theorem exec_add : exec (.add dr sr1 sr2) s = .next (s.setRegFlags dr (s.reg sr1 + s.reg sr2)) := rfl

theorem exec_addi : exec (.addi dr sr1 imm5) s = .next (s.setRegFlags dr (s.reg sr1 + imm5.signExtend 16)) := rfl

theorem exec_and : exec (.and dr sr1 sr2) s = .next (s.setRegFlags dr (s.reg sr1 &&& s.reg sr2)) := rfl

theorem exec_andi : exec (.andi dr sr1 imm5) s = .next (s.setRegFlags dr (s.reg sr1 &&& imm5.signExtend 16)) := rfl

theorem exec_not : exec (.not dr sr) s = .next (s.setRegFlags dr (~~~ (s.reg sr))) := rfl

end

theorem reg_of_exec_not {dr sr : Reg} {s t : State} (h : exec (.not dr sr) s = .next t) :
    t.reg dr = ~~~ (s.reg sr) := by
  obtain rfl := Host.Outcome.next.inj h
  exact (writesReg_setRegFlags dr _ s).1

/-- NOT twice in place: the second complement is of the first one's result. -/
theorem reg_of_exec_not_twice {r : Reg} {s t u : State} (ht : exec (.not r r) s = .next t)
    (hu : exec (.not r r) t = .next u) : u.reg r = s.reg r :=
  calc
    u.reg r = ~~~ (t.reg r) := reg_of_exec_not hu
    _ = ~~~ (~~~ (s.reg r)) := by rw [reg_of_exec_not ht]
    _ = s.reg r := BitVec.not_not

/-- Settles O11: bit 5 clear selects the register form, whose one write is the sum. -/
theorem addRegisterForm : Obligations.AddRegisterForm :=
  ⟨fun _ => decode_add, fun dr sr1 sr2 s => operates_of_exec_eq (exec_add dr sr1 sr2 s)⟩

/-- Settles O12: bit 5 set selects the immediate form, whose one write is the sum with the extended immediate. -/
theorem addImmediateForm : Obligations.AddImmediateForm :=
  ⟨fun _ => decode_addi, fun dr sr1 imm5 s => operates_of_exec_eq (exec_addi dr sr1 imm5 s)⟩

/-- Settles O13: bit 5 clear selects the register form, whose one write is the conjunction. -/
theorem andRegisterForm : Obligations.AndRegisterForm :=
  ⟨fun _ => decode_and, fun dr sr1 sr2 s => operates_of_exec_eq (exec_and dr sr1 sr2 s)⟩

/-- Settles O14: bit 5 set selects the immediate form, whose one write is the conjunction with the extended immediate. -/
theorem andImmediateForm : Obligations.AndImmediateForm :=
  ⟨fun _ => decode_andi, fun dr sr1 imm5 s => operates_of_exec_eq (exec_andi dr sr1 imm5 s)⟩

/-- Settles O15: the one write is the complement, and complementing is its own inverse. -/
theorem notComplements : Obligations.NotComplements :=
  ⟨fun _ => decode_not, fun dr sr s => operates_of_exec_eq (exec_not dr sr s),
    fun r s => ⟨_, _, exec_not r r s, exec_not r r _, reg_of_exec_not_twice (exec_not r r s) (exec_not r r _)⟩⟩

end Machine

end Sys2Proof
end

section
/-! PROOFS. Who writes CC, and what it then describes (41_operate R141). -/

namespace Sys2Proof.Machine

@[simp] theorem memRead_cc (s : State) (a : Word) : (memRead s a).2.cc = s.cc := by rw [memRead_frame]
@[simp] theorem memWrite_cc (s : State) (a v : Word) : (memWrite s a v).cc = s.cc := by rw [memWrite_frame]
@[simp] theorem readRun_cc (a : Word) (s : State) (n : Nat) : (readRun a s n).cc = s.cc := by rw [readRun_frame]

/-- Instruction `i` writes register `r` and sets CC from it. -/
def SetsFlagsFrom (i : Instr) (r : Reg) : Prop :=
  (∃ a b, i = .add r a b) ∨ (∃ a b, i = .addi r a b) ∨ (∃ a b, i = .and r a b) ∨ (∃ a b, i = .andi r a b) ∨
  (∃ a, i = .not r a) ∨ (∃ a, i = .ld r a) ∨ (∃ a, i = .ldi r a) ∨ (∃ a b, i = .ldr r a b) ∨ ∃ a, i = .lea r a

/-- What an effect does to CC: nothing, or it describes the destination the instruction has written. -/
theorem Effect.cc {i : Instr} {s t : State} (h : Effect i s t) :
    t.cc = s.cc ∨ ∃ r, FlagsOf t.cc (t.reg r) ∧ SetsFlagsFrom i r := by
  cases h with
  | operate r v hi => exact .inr ⟨r, flagsOf_setRegFlags r v s, by grind [SetsFlagsFrom]⟩
  | load r ea hi => exact .inr ⟨r, flagsOf_setRegFlags r _ _, by grind [SetsFlagsFrom]⟩
  | loadIndirect r a p hi => exact .inr ⟨r, flagsOf_setRegFlags r _ _, by grind [SetsFlagsFrom]⟩
  | store ea v => exact .inl (memWrite_cc s ea v)
  | storeIndirect a p v => exact .inl ((memWrite_cc _ p v).trans (memRead_cc s a))
  | string n bs => exact .inl (readRun_cc _ s n)
  | stringFails n bs => exact .inl (readRun_cc _ s n)
  | outputThenHalt bs => exact .inl (by rw [clearRunning_eq]; rfl)
  | jump | call | nothing | waitForKey | output | outputFails | outputThenWait => exact .inl rfl

/-- At the end of a key wait CC describes R0. -/
theorem flagsOf_deliverKey (b : Byte) (s : State) : FlagsOf (deliverKey b s).cc ((deliverKey b s).reg 0#3) :=
  flagsOf_setRegFlags 0#3 (zext8 b) s

/-- Settles O52: by the effects of an instruction, and by the cases of a step outside Boundary, of which only the
delivery of a key writes CC. -/
theorem onlyWritersChangeFlags : Obligations.OnlyWritersChangeFlags := by
  refine ⟨fun i s t h => (exec_effect i s t h).cc, fun s t hb h => ?_⟩
  rcases step_cases_off_boundary s t hb h with ⟨-, hcc, -⟩ | ⟨w, b, u, hw, -, -, rfl⟩
  · exact .inl hcc
  · exact .inr ⟨flagsOf_deliverKey b u, w, hw⟩

end Sys2Proof.Machine
end

section
/-! PROOFS. The loads, the stores and LEA (42_data_movement R161 to R167): the words that decode to them, the word they
load or store, and the side effect of reading KBDR. -/

namespace Sys2Proof

/-! ## Decoding -/

section
variable {w : Word}

theorem decode_ld (ho : opcodeField w = 0b0010#4) : decode w = .ld (field11to9 w) (off9Field w) := by
  simp [decode, ho]

theorem decode_st (ho : opcodeField w = 0b0011#4) : decode w = .st (field11to9 w) (off9Field w) := by
  simp [decode, ho]

theorem decode_ldr (ho : opcodeField w = 0b0110#4) :
    decode w = .ldr (field11to9 w) (field8to6 w) (off6Field w) := by
  simp [decode, ho]

theorem decode_str (ho : opcodeField w = 0b0111#4) :
    decode w = .str (field11to9 w) (field8to6 w) (off6Field w) := by
  simp [decode, ho]

theorem decode_ldi (ho : opcodeField w = 0b1010#4) : decode w = .ldi (field11to9 w) (off9Field w) := by
  simp [decode, ho]

theorem decode_sti (ho : opcodeField w = 0b1011#4) : decode w = .sti (field11to9 w) (off9Field w) := by
  simp [decode, ho]

theorem decode_lea (ho : opcodeField w = 0b1110#4) : decode w = .lea (field11to9 w) (off9Field w) := by
  simp [decode, ho]

end

namespace Machine

/-! ## The addresses -/

section
variable (dr sr base : Reg) (off6 : BitVec 6) (off9 : BitVec 9) (s : State)

theorem exec_ld : exec (.ld dr off9) s = .next (loadFrom dr (s.pc + off9.signExtend 16) s) := rfl

theorem exec_ldr : exec (.ldr dr base off6) s = .next (loadFrom dr (s.reg base + off6.signExtend 16) s) := rfl

/-- The pointer is the raw word, and the second read starts in the state the first one leaves. -/
theorem exec_ldi :
    exec (.ldi dr off9) s =
      .next (loadFrom dr (s.memAt (s.pc + off9.signExtend 16)) (memRead s (s.pc + off9.signExtend 16)).2) := by
  rw [← memRead_fst]; rfl

theorem exec_st : exec (.st sr off9) s = .next (memWrite s (s.pc + off9.signExtend 16) (s.reg sr)) := rfl

theorem exec_str :
    exec (.str sr base off6) s = .next (memWrite s (s.reg base + off6.signExtend 16) (s.reg sr)) := rfl

/-- The pointer is the raw word, and the store starts in the state the pointer read leaves. -/
theorem exec_sti :
    exec (.sti sr off9) s =
      .next (memWrite (memRead s (s.pc + off9.signExtend 16)).2 (s.memAt (s.pc + off9.signExtend 16)) (s.reg sr)) := by
  rw [← memRead_fst, ← memRead_reg s (pcRelative s off9) sr]; rfl

theorem exec_lea : exec (.lea dr off9) s = .next (s.setRegFlags dr (s.pc + off9.signExtend 16)) := rfl

end

/-! ## One load -/

theorem writesReg_loadFrom (dr : Reg) (ea : Word) (s : State) : WritesReg dr (s.memAt ea) s (loadFrom dr ea s) :=
  ⟨(reg_loadFrom s dr dr ea).trans (if_pos rfl), fun r hr => (reg_loadFrom s dr r ea).trans (if_neg hr)⟩

theorem flagsOf_loadFrom (dr : Reg) (ea : Word) (s : State) :
    FlagsOf (loadFrom dr ea s).cc ((loadFrom dr ea s).reg dr) :=
  flagsOf_setRegFlags dr _ _

theorem loadFrom_memAt (dr : Reg) (ea : Word) (s : State) (b : Word) :
    (loadFrom dr ea s).memAt b = afterRead s ea b :=
  memRead_memAt s ea b

/-- Once memory is replaced, nothing is left of a read. -/
theorem memRead_with_mem (s : State) (a : Word) (m : Memory) :
    { (memRead s a).2 with mem := m } = { s with mem := m } := by
  rw [memRead_frame]

theorem memRead_with_regs_cc_mem (s : State) (a : Word) (rs : Vector Word 8) (c : BitVec 3) (m : Memory) :
    { (memRead s a).2 with regs := rs, cc := c, mem := m } = { s with regs := rs, cc := c, mem := m } :=
  congrArg (fun t : State => { t with regs := rs, cc := c }) (memRead_with_mem s a m)

/-- A load changes the registers, CC and memory only. -/
theorem loadFrom_frame (dr : Reg) (ea : Word) (s : State) :
    loadFrom dr ea s =
      { s with regs := (loadFrom dr ea s).regs, cc := (loadFrom dr ea s).cc, mem := (loadFrom dr ea s).mem } :=
  memRead_with_regs_cc_mem s ea _ _ _

/-- What LD and LDR have in common. -/
theorem loads_of_exec_eq {i : Instr} {s : State} {dr : Reg} {ea : Word} (h : exec i s = .next (loadFrom dr ea s)) :
    ∃ t, exec i s = .next t ∧
      WritesReg dr (s.memAt ea) s t ∧ FlagsOf t.cc (t.reg dr) ∧ (∀ b, t.memAt b = afterRead s ea b) ∧
      t = { s with regs := t.regs, cc := t.cc, mem := t.mem } :=
  ⟨_, h, writesReg_loadFrom dr ea s, flagsOf_loadFrom dr ea s, loadFrom_memAt dr ea s, loadFrom_frame dr ea s⟩

/-! ## A load through a pointer -/

/-- Two reads in a row: READY is cleared if either is of KBDR, and clearing it twice is clearing it once. -/
theorem afterRead_memRead (s : State) (a p b : Word) :
    afterRead (memRead s a).2 p b =
      if (a = 0xFE02#16 ∨ p = 0xFE02#16) ∧ b = 0xFE00#16 then s.memAt 0xFE00#16 &&& 0x7FFF#16 else s.memAt b := by
  simp only [afterRead, memRead_memAt]
  by_cases hb : b = 0xFE00#16
  · subst hb
    by_cases ha : a = 0xFE02#16 <;> by_cases hp : p = 0xFE02#16 <;> simp [ha, hp, BitVec.and_assoc]
  · simp [hb]

/-- The register loaded is the word at the pointer as the pointer read leaves it. -/
theorem writesReg_loadFrom_memRead (dr : Reg) (a p : Word) (s : State) :
    WritesReg dr (afterRead s a p) s (loadFrom dr p (memRead s a).2) := by
  obtain ⟨hdr, hother⟩ := writesReg_loadFrom dr p (memRead s a).2
  exact ⟨hdr.trans (memRead_memAt s a p), fun r hr => (hother r hr).trans (memRead_reg s a r)⟩

theorem loadFrom_memRead_memAt (dr : Reg) (a p : Word) (s : State) (b : Word) :
    (loadFrom dr p (memRead s a).2).memAt b =
      if (a = 0xFE02#16 ∨ p = 0xFE02#16) ∧ b = 0xFE00#16 then s.memAt 0xFE00#16 &&& 0x7FFF#16 else s.memAt b :=
  (loadFrom_memAt dr p _ b).trans (afterRead_memRead s a p b)

/-- Settles O20: a load in the state that the pointer read leaves; the two reads clear READY if either is of KBDR. -/
theorem ldiLoadsIndirect : Obligations.LdiLoadsIndirect := by
  refine ⟨fun _ => decode_ldi, ?_⟩
  rintro dr off9 s a p rfl rfl
  refine ⟨_, exec_ldi dr off9 s, writesReg_loadFrom_memRead dr _ _ s, flagsOf_loadFrom dr _ _,
    fun hk => ?_, fun ha hp => ?_, fun b hb => ?_, (loadFrom_frame dr _ _).trans (memRead_with_regs_cc_mem s _ _ _ _)⟩
  · exact (loadFrom_memRead_memAt dr _ _ s _).trans (if_pos ⟨hk, rfl⟩)
  · exact (loadFrom_memRead_memAt dr _ _ s _).trans (if_neg fun h => h.1.elim ha hp)
  · exact (loadFrom_memRead_memAt dr _ _ s b).trans (if_neg fun h => hb h.2)

/-! ## Stores -/

theorem memWrite_memAt_same {a : Word} (hs : a ≠ 0xFE00#16) (hd : a ≠ 0xFE02#16) (s : State) (v : Word) :
    (memWrite s a v).memAt a = v :=
  (memWrite_memAt s a v a).trans (if_pos ⟨rfl, hs, hd⟩)

theorem memWrite_memAt_of_ne {a b : Word} (hb : b ≠ a) (s : State) (v : Word) :
    (memWrite s a v).memAt b = s.memAt b :=
  (memWrite_memAt s a v b).trans (if_neg fun h => hb h.1)

/-- What ST and STR have in common. -/
theorem stores_of_exec_eq {i : Instr} {s : State} {ea v : Word} (h : exec i s = .next (memWrite s ea v)) :
    ∃ t, exec i s = .next t ∧
      (ea = 0xFE00#16 ∨ ea = 0xFE02#16 → t = s) ∧ (ea ≠ 0xFE00#16 → ea ≠ 0xFE02#16 → t.memAt ea = v) ∧
      (∀ b, b ≠ ea → t.memAt b = s.memAt b) ∧ t = { s with mem := t.mem } :=
  ⟨_, h, fun hd => memWrite_of_device hd s v, fun hs hd => memWrite_memAt_same hs hd s v,
    fun _ hb => memWrite_memAt_of_ne hb s v, memWrite_frame s ea v⟩

/-- Settles O21: a store in the state that the pointer read leaves, which a pointer to a device cell drops. -/
theorem stiStoresIndirect : Obligations.StiStoresIndirect := by
  refine ⟨fun _ => decode_sti, ?_⟩
  rintro sr off9 s a p rfl rfl
  refine ⟨_, exec_sti sr off9 s, fun hs hd => memWrite_memAt_same hs hd _ _, fun hdev => ?_, fun b hb => ?_,
    (memWrite_frame _ _ _).trans (memRead_with_mem s _ _)⟩
  · rw [memWrite_of_device hdev, memRead_memAt]
  · rw [memWrite_memAt_of_ne hb, memRead_memAt]

/-- Settles O16: one load, from the PC plus the extended offset. -/
theorem ldLoadsPcRelative : Obligations.LdLoadsPcRelative :=
  ⟨fun _ => decode_ld, fun dr off9 s => loads_of_exec_eq (exec_ld dr off9 s)⟩

/-- Settles O17: one store, to the PC plus the extended offset. -/
theorem stStoresPcRelative : Obligations.StStoresPcRelative :=
  ⟨fun _ => decode_st, fun sr off9 s => stores_of_exec_eq (exec_st sr off9 s)⟩

/-- Settles O18: one load, from the old base plus the extended offset. -/
theorem ldrLoadsBaseOffset : Obligations.LdrLoadsBaseOffset :=
  ⟨fun _ => decode_ldr, fun dr base off6 s => loads_of_exec_eq (exec_ldr dr base off6 s)⟩

/-- Settles O19: one store, to the base plus the extended offset. -/
theorem strStoresBaseOffset : Obligations.StrStoresBaseOffset :=
  ⟨fun _ => decode_str, fun sr base off6 s => stores_of_exec_eq (exec_str sr base off6 s)⟩

/-- Settles O22: LEA is an operate instruction whose value is the address. -/
theorem leaComputesAddress : Obligations.LeaComputesAddress :=
  ⟨fun _ => decode_lea, fun dr off9 s => operates_of_exec_eq (exec_lea dr off9 s)⟩

end Machine

end Sys2Proof
end

section
/-! PROOFS. The TRAP words and their dispatch (43_trap R190, R199). -/

namespace Sys2Proof

theorem decode_trap {w : Word} (ho : opcodeField w = 0b1111#4) : decode w = decodeTrap (trapvect8Field w) := by
  simp [decode, ho]

theorem isServiceVector_eq_false {v : BitVec 8} (h : v < 0x20#8 ∨ 0x25#8 < v) : isServiceVector v = false := by
  simp only [isServiceVector, Bool.and_eq_false_iff, decide_eq_false_iff_not, BitVec.not_le]
  exact h

/-- Every TRAP instruction carries the opcode of TRAP. -/
theorem expected_decodeTrap (v : BitVec 8) : Laws.Opcode.expected (decodeTrap v) = 0b1111#4 := by
  cases hv : isServiceVector v with
  | false => rw [decodeTrap_of_not_service hv]; rfl
  | true => rcases (isServiceVector_iff v).1 hv with rfl | rfl | rfl | rfl | rfl | rfl <;> rfl

namespace Machine

theorem exec_trap (v : BitVec 8) (s : State) : exec (.trap v) s = execTrap v s := rfl

theorem exec_trap_of_not_service {v : BitVec 8} (hv : isServiceVector v = false) (s : State) :
    exec (.trap v) s = .next s := by
  rw [← Bool.not_eq_true, isServiceVector_iff] at hv
  simp only [not_or] at hv
  obtain ⟨h20, h21, h22, h23, h24, h25⟩ := hv
  simp only [exec_trap, execTrap, h20, h21, h22, h23, h24, h25, if_false]

/-- The decoder and the dispatcher make the same choice. -/
theorem exec_trap_eq_exec_decodeTrap (v : BitVec 8) (s : State) : exec (.trap v) s = exec (decodeTrap v) s := by
  rw [exec_trap, execTrap, decodeTrap]
  split_ifs
  case neg => simp only [exec_trap, execTrap, *, if_false]
  all_goals rfl

/-- Settles O28: such a vector is no service vector, and both the decoder and the dispatcher fall through. -/
theorem undefinedVectorDoesNothing : Obligations.UndefinedVectorDoesNothing :=
  ⟨fun _ ho hv => (decode_trap ho).trans (decodeTrap_of_not_service (isServiceVector_eq_false hv)),
    fun _ s hv => exec_trap_of_not_service (isServiceVector_eq_false hv) s⟩

/-! ## What a TRAP leaves alone -/

theorem regs_eq_of_reg_eq {s t : State} (h : ∀ r : Reg, t.reg r = s.reg r) : t.regs = s.regs := by
  ext k hk : 1
  have hr := h (BitVec.ofNat 3 k)
  have hk' : (BitVec.ofNat 3 k).toNat = k := by rw [BitVec.toNat_ofNat]; omega
  simpa only [State.reg, hk'] using hr

/-- No TRAP instruction has a destination register, sets flags from one, or transfers control. -/
theorem Effect.unchanged_of_trap {i : Instr} {s t : State} (h : Effect i s t)
    (hi : Laws.Opcode.expected i = 0b1111#4) : t.regs = s.regs ∧ t.cc = s.cc ∧ t.pc = s.pc := by
  cases i with
  | trapGetc | trapOut | trapPuts | trapIn | trapPutsp | trapHalt | trap v =>
    exact ⟨regs_eq_of_reg_eq fun r => (h.reg r).resolve_right (by simp [HasDest]),
      h.cc.resolve_right (by simp [SetsFlagsFrom]), h.pc.resolve_right (by simp)⟩
  | _ => simp [Laws.Opcode.expected] at hi

/-- Settles O29: both dispatch on the low byte, and a TRAP instruction's effect writes no register, CC or PC. -/
theorem trapDispatchesOnVector : Obligations.TrapDispatchesOnVector := by
  refine ⟨fun w ho => ?_, fun s => ?_, fun w s t ho h => ?_⟩
  · have hd (v : BitVec 8) (hv : w.extractLsb' 0 8 = v) : decode w = decodeTrap v :=
      (decode_trap ho).trans (congrArg _ hv)
    exact ⟨hd _, hd _, hd _, hd _, hd _, hd _⟩
  · have hx (v : BitVec 8) : exec (.trap v) s = exec (decodeTrap v) s := exec_trap_eq_exec_decodeTrap v s
    exact ⟨hx _, hx _, hx _, hx _, hx _, hx _⟩
  · rw [decode_trap ho] at h
    exact (exec_effect _ s t h).unchanged_of_trap (expected_decodeTrap _)

end Machine

end Sys2Proof
end

section
/-! PROOFS. The service routines that write or wait: OUT, HALT, GETC and IN (43_trap R191 to R193, R195, R196, R198,
R201). -/

namespace Sys2Proof.Machine

/-! ## A row of Emits, and what follows it -/

section
variable {s : State} {bs : List Byte} (rest : State → State)

theorem emitAll_thenDo_of_accepts (h : SinkAccepts bs.length s) :
    (emitAll bs s).thenDo rest = rest (accepted s bs) := by
  rw [emitAll_accepts bs s h]; rfl

theorem emitAll_thenDo_of_fails {n : Nat} (hn : n < bs.length) (h : SinkFailsAt n s) :
    (emitAll bs s).thenDo rest = failedAfter s (bs.take n) := by
  rw [emitAll_fails bs s n hn h]; rfl

theorem emit_thenDo_eq_emitAll (b : Byte) (s : State) : (emit b s).thenDo rest = (emitAll [b] s).thenDo rest := by
  rcases emit_cases b s with ⟨-, h⟩ | ⟨-, h⟩ <;> simp only [emitAll, h]

end

/-! ## OUT and HALT -/

theorem exec_trapOut (s : State) : exec .trapOut s = .next ((emitAll [lowByte (s.reg 0#3)] s).thenDo id) :=
  congrArg _ (emit_thenDo_eq_emitAll id _ s)

theorem exec_trapHalt (s : State) : exec .trapHalt s = .next ((emitAll haltText s).thenDo (clearRunning .halt)) := rfl

/-- Settles O32: one Emit, with nothing after it. -/
theorem outEmitsLowByte : Obligations.OutEmitsLowByte := by
  refine fun s => ⟨fun h => ?_, fun h => ?_⟩ <;> rw [exec_trapOut]
  · exact congrArg _ (emitAll_thenDo_of_accepts id h)
  · exact congrArg _ (emitAll_thenDo_of_fails id Nat.zero_lt_one h)

/-- Settles O38: the row of Emits, then `running` falls. -/
theorem haltEmitsAndStops : Obligations.HaltEmitsAndStops := by
  rintro s text rfl
  refine ⟨fun h => ?_, fun n hn h => ?_⟩ <;> rw [exec_trapHalt]
  · exact congrArg _ ((emitAll_thenDo_of_accepts (bs := haltText) _ h).trans (clearRunning_eq _ _))
  · exact congrArg _ (emitAll_thenDo_of_fails _ hn h)

/-! ## The key wait -/

theorem mustCancel_eq_false {s : State} (h : s.running = true ∨ s.params.stopCancelsWait ≠ some true) :
    mustCancel s = false := by
  rw [← Bool.not_eq_true]
  intro hc
  obtain ⟨hmay, hset⟩ := Bool.and_eq_true_iff.1 hc
  obtain ⟨-, hstopped, -⟩ := (mayCancel_iff s).1 hmay
  exact h.elim (by simp [hstopped]) (absurd (eq_of_beq hset))

section
variable {s : State} (hc : mustCancel s = false)
include hc

theorem waitStep_of_keyBuf_none (r : WaitRoutine) (hk : s.keyBuf = none) : waitStep r s = s := by
  simp [waitStep, hc, hk]

theorem waitStep_getc {b : Byte} (hk : s.keyBuf = some b) :
    waitStep .getc s = deliverKey b { s with keyBuf := none } := by
  simp [waitStep, hc, hk, finishGetc]

theorem waitStep_input {b : Byte} (hk : s.keyBuf = some b) :
    waitStep .input s = (emitAll [b] { s with keyBuf := none }).thenDo (deliverKey b) := by
  simp [waitStep, hc, hk, finishInput, emit_thenDo_eq_emitAll]

end

theorem step_core_waitKey {s : State} {r : WaitRoutine} (ht : turnOf s = .core) (hp : s.phase = .waitKey r) :
    step s = .next (waitStep r (takeTurn s)) := by
  have hphase : (takeTurn s).phase = .waitKey r := hp
  simp only [step, machineStep, ht, agentStep, coreStep, hphase]

/-- The end of a key wait writes R0. -/
theorem writesReg_deliverKey (b : Byte) (s : State) : WritesReg 0#3 (b.setWidth 16) s (deliverKey b s) :=
  writesReg_setRegFlags 0#3 (zext8 b) s

/-! ## GETC and IN -/

theorem exec_trapGetc (s : State) : exec .trapGetc s = .next { s with phase := .waitKey .getc } := rfl

theorem exec_trapIn (s : State) :
    exec .trapIn s = .next ((emitAll promptText s).thenDo fun t => { t with phase := .waitKey .input }) := rfl

/-- Settles O31: the wait that is not cancelled holds, or delivers the byte with no echo. -/
theorem getcWaitsThenDelivers : Obligations.GetcWaitsThenDelivers := by
  refine ⟨exec_trapGetc, fun s ht hp hw => ?_⟩
  have hc : mustCancel (takeTurn s) = false := mustCancel_eq_false hw
  rw [step_core_waitKey ht hp]
  refine ⟨fun hk => congrArg _ (waitStep_of_keyBuf_none hc .getc hk), fun b hk => ?_⟩
  exact ⟨_, congrArg _ (waitStep_getc hc hk), writesReg_deliverKey b _, flagsOf_deliverKey b _, rfl, rfl, rfl⟩

/-- Settles O37: the prompt is a row of Emits, and the wait that is not cancelled holds, or echoes and then delivers. -/
theorem inPromptsThenEchoes : Obligations.InPromptsThenEchoes := by
  refine ⟨?_, fun s ht hp hw => ?_⟩
  · rintro s prompt rfl
    refine ⟨fun h => ?_, fun n hn h => ?_⟩ <;> rw [exec_trapIn]
    · exact congrArg _ (emitAll_thenDo_of_accepts _ h)
    · exact congrArg _ (emitAll_thenDo_of_fails _ hn h)
  · have hc : mustCancel (takeTurn s) = false := mustCancel_eq_false hw
    rw [step_core_waitKey ht hp]
    refine ⟨fun hk => congrArg _ (waitStep_of_keyBuf_none hc .input hk), fun b hk h => ?_, fun b hk h => ?_⟩
    · have ha : SinkAccepts [b].length { takeTurn s with keyBuf := none } := h
      exact ⟨_, congrArg _ ((waitStep_input hc hk).trans (emitAll_thenDo_of_accepts _ ha)), writesReg_deliverKey b _,
        flagsOf_deliverKey b _, rfl, rfl, rfl⟩
    · have hf : SinkFailsAt 0 { takeTurn s with keyBuf := none } := h
      exact congrArg _ ((waitStep_input hc hk).trans (emitAll_thenDo_of_fails _ Nat.zero_lt_one hf))

end Sys2Proof.Machine
end

section
/-! PROOFS. The string routines PUTS and PUTSP (43_trap R194, R197, R200, R201): where they end, with what output and
memory, and when they hang. -/

namespace Sys2Proof.Machine

/-! ## Once round the memory -/

theorem exists_offset (a b : Word) : ∃ j < 0x10000, a + BitVec.ofNat 16 j = b :=
  ⟨(b - a).toNat, (b - a).isLt, by
    rw [BitVec.ofNat_toNat, BitVec.setWidth_eq, BitVec.add_comm, BitVec.sub_add_cancel]⟩

theorem passesKbdr_of_round (a : Word) {k : Nat} (hk : 0x10000 ≤ k) : passesKbdr a k := by
  obtain ⟨j, hj, h⟩ := exists_offset a 0xFE02#16
  exact ⟨j, by omega, h⟩

/-- A zero word is met within twice round the memory, or never: from the second round on the words repeat. -/
theorem exists_first_zero {a : Word} {s : State} {k : Nat} (hz : wordAt a s k = 0x0000#16) :
    ∃ n < 0x20000, wordAt a s n = 0x0000#16 ∧ ∀ j < n, wordAt a s j ≠ 0x0000#16 := by
  have hex : ∃ n, wordAt a s n = 0x0000#16 := ⟨k, hz⟩
  refine ⟨Nat.find hex, ?_, Nat.find_spec hex, fun j => Nat.find_min hex⟩
  by_contra hlate
  obtain ⟨n, hn⟩ : ∃ n, Nat.find hex = n + 0x10000 := ⟨Nat.find hex - 0x10000, by omega⟩
  refine Nat.find_min hex (m := n) (by omega) ?_
  rw [← wordAt_period a s n (by omega), ← hn]
  exact Nat.find_spec hex

/-! ## The sink and a row of words -/

theorem sinkAccepts_or_fails (n : Nat) (s : State) : SinkAccepts n s ∨ ∃ m < n, SinkFailsAt m s := by
  cases hm : s.params.sinkMayFail with
  | false => exact .inl (.inl hm)
  | true =>
    induction n with
    | zero => exact .inl (.inr fun k hk => absurd hk (Nat.not_lt_zero k))
    | succ n ih =>
      rcases ih with ha | ⟨m, hlt, hf⟩
      · replace ha := ha.resolve_left (by simp [hm])
        by_cases he : s.sinkAnswers[n]? = some .error
        · exact .inr ⟨n, n.lt_succ_self, hm, ha, he⟩
        · exact .inl (.inr fun k hk => (Nat.lt_succ_iff_lt_or_eq.1 hk).elim (ha k) (fun h => h ▸ he))
      · exact .inr ⟨m, by omega, hf⟩

theorem SinkFailsAt.lt_length {n : Nat} {s : State} (h : SinkFailsAt n s) : n < s.sinkAnswers.length := by
  obtain ⟨-, -, he⟩ := h
  exact (List.getElem?_eq_some_iff.1 he).1

section
variable {f : Word → List Byte} {a : Word} {s : State}

/-- The n-th byte of a row of words is a byte of one of them. -/
theorem exists_word_of_byte {n k : Nat} (hn : n < (bytesUpTo f a s k).length) :
    ∃ j < k, ∃ m < (f (wordAt a s j)).length, n = (bytesUpTo f a s j).length + m := by
  induction k with
  | zero => simp [bytesUpTo] at hn
  | succ k ih =>
    rw [bytesUpTo_succ, List.length_append] at hn
    by_cases h : n < (bytesUpTo f a s k).length
    · obtain ⟨j, hj, hm⟩ := ih h
      exact ⟨j, by omega, hm⟩
    · exact ⟨k, k.lt_succ_self, n - (bytesUpTo f a s k).length, by omega, by omega⟩

theorem le_length_bytesUpTo (hf : ∀ w, f w ≠ []) (k : Nat) : k ≤ (bytesUpTo f a s k).length := by
  induction k with
  | zero => exact Nat.zero_le _
  | succ k ih =>
    have hpos := List.length_pos_iff.2 (hf (wordAt a s k))
    rw [bytesUpTo_succ, List.length_append]
    omega

end

/-! ## Where a string routine ends -/

section
variable {f : Word → List Byte} {s : State} {k : Nat}

theorem serviceString_of_stringLoop {t : State} (h : stringLoop f (stringFuel s) (s.reg 0#3) s = some t) :
    serviceString f s = .next t := by
  rw [serviceString, h]

theorem serviceString_of_stringLoop_none (h : stringLoop f (stringFuel s) (s.reg 0#3) s = none) :
    serviceString f s = .fault .serviceNeverEnds := by
  rw [serviceString, h]

/-- At the first zero word. The fuel reaches it: it is met within twice round the memory. -/
theorem serviceString_of_zero (hz : wordAt (s.reg 0#3) s k = 0x0000#16)
    (hw : ∀ j < k, wordAt (s.reg 0#3) s j ≠ 0x0000#16) (ha : SinkAccepts (bytesUpTo f (s.reg 0#3) s k).length s) :
    serviceString f s = .next (accepted (readRun (s.reg 0#3) s (k + 1)) (bytesUpTo f (s.reg 0#3) s k)) := by
  obtain ⟨n, hn, hzn, hwn⟩ := exists_first_zero hz
  have hk : k ≤ n := Nat.le_of_not_lt fun h => hw n h hzn
  exact serviceString_of_stringLoop (stringLoop_zero f _ _ s k (by unfold stringFuel; omega) hw hz ha)

/-- At the first failing write. The fuel reaches it: the answers lined up hold the failure, and each word takes one. -/
theorem serviceString_of_failure {m : Nat} (hf : ∀ w, f w ≠ [])
    (hw : ∀ j ≤ k, wordAt (s.reg 0#3) s j ≠ 0x0000#16) (hm : m < (f (wordAt (s.reg 0#3) s k)).length)
    (hs : SinkFailsAt ((bytesUpTo f (s.reg 0#3) s k).length + m) s) :
    serviceString f s = .next (failedAfter (readRun (s.reg 0#3) s (k + 1))
      (bytesUpTo f (s.reg 0#3) s k ++ (f (wordAt (s.reg 0#3) s k)).take m)) := by
  have hk : k ≤ (bytesUpTo f (s.reg 0#3) s k).length := le_length_bytesUpTo hf k
  have hlen := hs.lt_length
  exact serviceString_of_stringLoop (stringLoop_fails f _ _ s k m (by unfold stringFuel; omega) hw hm hs)

/-- Before or at the first zero word, whatever the sink answers. -/
theorem exists_next_of_zero (hf : ∀ w, f w ≠ []) (hz : wordAt (s.reg 0#3) s k = 0x0000#16) :
    ∃ t, serviceString f s = .next t := by
  obtain ⟨n, -, hzn, hwn⟩ := exists_first_zero hz
  rcases sinkAccepts_or_fails (bytesUpTo f (s.reg 0#3) s n).length s with ha | ⟨i, hi, hs⟩
  · exact ⟨_, serviceString_of_zero hzn hwn ha⟩
  · obtain ⟨j, hj, m, hm, rfl⟩ := exists_word_of_byte hi
    exact ⟨_, serviceString_of_failure hf (fun l hl => hwn l (by omega)) hm hs⟩

/-- With a failing write ahead and no zero word the failing write is reached: every word gives a byte. -/
theorem exists_next_of_failure {n : Nat} (hf : ∀ w, f w ≠ []) (hw : ∀ j, wordAt (s.reg 0#3) s j ≠ 0x0000#16)
    (hs : SinkFailsAt n s) : ∃ t, serviceString f s = .next t := by
  have hn : n < (bytesUpTo f (s.reg 0#3) s (n + 1)).length := le_length_bytesUpTo hf (n + 1)
  obtain ⟨j, -, m, hm, rfl⟩ := exists_word_of_byte hn
  exact ⟨_, serviceString_of_failure hf (fun l _ => hw l) hm hs⟩

theorem serviceString_fault_iff (hf : ∀ w, f w ≠ []) :
    serviceString f s = .fault .serviceNeverEnds ↔
      (∀ k, ¬ IsStringWord s (s.reg 0#3) k 0x0000#16) ∧ ∀ n, ¬ SinkFailsAt n s := by
  simp only [isStringWord_iff]
  constructor
  · intro hfault
    have hw (k : Nat) : ¬ 0x0000#16 = wordAt (s.reg 0#3) s k := fun hz => by
      obtain ⟨t, ht⟩ := exists_next_of_zero hf hz.symm
      simp [hfault] at ht
    refine ⟨hw, fun n hs => ?_⟩
    obtain ⟨t, ht⟩ := exists_next_of_failure hf (fun j hj => hw j hj.symm) hs
    simp [hfault] at ht
  · rintro ⟨hw, hs⟩
    have ha (n : Nat) : SinkAccepts n s := (sinkAccepts_or_fails n s).resolve_right fun ⟨m, _, hm⟩ => hs m hm
    exact serviceString_of_stringLoop_none (stringLoop_none f _ _ s (fun j _ hj => hw j hj.symm) (ha _))

end

/-! ## The words read, as a list -/

/-- The list is the words the loop reads, in order. -/
theorem stringReads_iff (s : State) (ws : List Word) :
    StringReads s ws ↔ ws = (List.range ws.length).map (wordAt (s.reg 0#3) s) ∧
      ∀ j < ws.length, wordAt (s.reg 0#3) s j ≠ 0x0000#16 := by
  simp only [StringReads, isStringWord_iff]
  constructor
  · intro h
    refine ⟨List.ext_getElem (by simp) fun j hj _ => ?_, fun j hj => (h j hj).1 ▸ (h j hj).2⟩
    simpa using (h j hj).1
  · rintro ⟨hws, hw⟩ j hj
    have hj' : ws[j] = wordAt (s.reg 0#3) s j := by simp [List.getElem_of_eq hws hj]
    exact ⟨hj', hj' ▸ hw j hj⟩

theorem StringReads.of_append {s : State} {ws vs : List Word} (h : StringReads s (ws ++ vs)) : StringReads s ws := by
  intro j hj
  have hj' := h j (by rw [List.length_append]; omega)
  rwa [List.getElem_append_left hj] at hj'

theorem StringReads.bytesUpTo_eq {s : State} {ws : List Word} (h : StringReads s ws) (f : Word → List Byte) :
    bytesUpTo f (s.reg 0#3) s ws.length = ws.flatMap f := by
  obtain ⟨hws, -⟩ := (stringReads_iff s ws).1 h
  conv_rhs => rw [hws, List.flatMap_map]
  rfl

theorem accepted_readRun (a : Word) (s : State) (k : Nat) (bs : List Byte) :
    accepted (readRun a s k) bs = { accepted s bs with mem := (readRun a s k).mem } := by
  rw [readRun_frame]; rfl

theorem failedAfter_readRun (a : Word) (s : State) (k : Nat) (bs : List Byte) :
    failedAfter (readRun a s k) bs = { failedAfter s bs with mem := (readRun a s k).mem } := by
  rw [readRun_frame]; rfl

section
variable {s : State} {ws : List Word} {f : Word → List Byte}

/-- What PUTS and PUTSP have in common where the sink takes every byte. -/
theorem serviceString_emits (hr : StringReads s ws) (hz : IsStringWord s (s.reg 0#3) ws.length 0x0000#16)
    (ha : SinkAccepts (ws.flatMap f).length s) :
    ∃ t, serviceString f s = .next t ∧ StringMemory s t (ws.length + 1) ∧
      t = { accepted s (ws.flatMap f) with mem := t.mem } := by
  have hb := hr.bytesUpTo_eq f
  obtain ⟨-, hw⟩ := (stringReads_iff s ws).1 hr
  have h := serviceString_of_zero (f := f) ((isStringWord_iff _ _ _ _).1 hz).symm hw (hb ▸ ha)
  rw [hb] at h
  exact ⟨_, h, readRun_stringMemory s _, accepted_readRun _ s _ _⟩

/-- What PUTS and PUTSP have in common where the m-th byte of the last word read fails. -/
theorem serviceString_stops (hf : ∀ w, f w ≠ []) {w : Word} {m : Nat} (hr : StringReads s (ws ++ [w]))
    (hm : m < (f w).length) (hs : SinkFailsAt ((ws.flatMap f).length + m) s) :
    ∃ t, serviceString f s = .next t ∧ StringMemory s t (ws.length + 1) ∧
      t = { failedAfter s (ws.flatMap f ++ (f w).take m) with mem := t.mem } := by
  have hlast : wordAt (s.reg 0#3) s ws.length = w := by
    simpa [isStringWord_iff, eq_comm] using (hr ws.length (by simp)).1
  have hb := hr.of_append.bytesUpTo_eq f
  obtain ⟨-, hw⟩ := (stringReads_iff s (ws ++ [w])).1 hr
  have h := serviceString_of_failure (f := f) (k := ws.length) (m := m) hf (fun j hj => hw j (by simp; omega))
    (hlast ▸ hm) (hb ▸ hs)
  rw [hb, hlast] at h
  exact ⟨_, h, readRun_stringMemory s _, failedAfter_readRun _ s _ _⟩

end

/-! ## PUTS and PUTSP -/

theorem exec_trapPuts (s : State) : exec .trapPuts s = serviceString putsBytes s := rfl

theorem exec_trapPutsp (s : State) : exec .trapPutsp s = serviceString putspBytes s := rfl

theorem putsBytes_ne_nil (w : Word) : putsBytes w ≠ [] := List.cons_ne_nil _ _

theorem putspBytes_ne_nil (w : Word) : putspBytes w ≠ [] := by
  unfold putspBytes
  split <;> exact List.cons_ne_nil _ _

theorem putspBytes_eq (w : Word) :
    putspBytes w = if w.extractLsb' 8 8 = 0x00#8 then [w.extractLsb' 0 8] else [w.extractLsb' 0 8, w.extractLsb' 8 8] :=
  ite_not ..

theorem flatMap_putsBytes (ws : List Word) : ws.flatMap putsBytes = ws.map fun w => w.extractLsb' 0 8 :=
  List.map_eq_flatMap.symm

/-- Settles O33: the string routine with one byte for each word. -/
theorem putsEmitsLowBytes : Obligations.PutsEmitsLowBytes := by
  refine ⟨fun s ws hr hz ha => ?_, fun s ws w hr hs => ?_⟩ <;> rw [exec_trapPuts, ← flatMap_putsBytes]
  · exact serviceString_emits hr hz (by simpa [flatMap_putsBytes] using ha)
  · have h := serviceString_stops (m := 0) putsBytes_ne_nil hr Nat.zero_lt_one (by simpa [flatMap_putsBytes] using hs)
    simpa using h

/-- Settles O34: the string routine with one or two bytes for each word. -/
theorem putspEmitsPackedBytes : Obligations.PutspEmitsPackedBytes := by
  intro packed hp
  obtain rfl : packed = putspBytes := funext fun w => (hp w).trans (putspBytes_eq w).symm
  exact ⟨fun s ws => serviceString_emits, fun s ws w m => serviceString_stops putspBytes_ne_nil⟩

/-- Settles O35: a zero word or a failing write is reached by the fuel, and with neither the loop does not end. -/
theorem stringHangsOnlyWithoutZero : Obligations.StringHangsOnlyWithoutZero :=
  fun _ => ⟨serviceString_fault_iff putsBytes_ne_nil, serviceString_fault_iff putspBytes_ne_nil⟩

/-- KBSR, read once more after KBDR, is a zero word. -/
theorem exists_zero_of_inv {s : State} (h : s.Inv) (a : Word) : ∃ k, wordAt a s k = 0x0000#16 := by
  obtain ⟨j, -, hj⟩ := exists_offset a 0xFE00#16
  have hround : a + BitVec.ofNat 16 (j + 0x10000) = 0xFE00#16 := by rw [BitVec.ofNat_add, ← hj]; simp
  refine ⟨j + 0x10000, ?_⟩
  rw [wordAt, hround, (readRun_kbsr a s _).1 (passesKbdr_of_round a (by omega))]
  rcases h.kbsrLegal with hk | hk <;> rw [hk] <;> rfl

/-- Settles O36: the string ends at KBSR at the latest. -/
theorem stringRoutinesComplete : Obligations.StringRoutinesComplete := by
  intro s h
  obtain ⟨k, hz⟩ := exists_zero_of_inv h (s.reg 0#3)
  exact ⟨exists_next_of_zero putsBytes_ne_nil hz, exists_next_of_zero putspBytes_ne_nil hz⟩

end Sys2Proof.Machine
end

section
/-! PROOFS. The no-ops: the reserved opcode and RTI, which has no supervisor state to return from (44_unimplemented
R220, R221). -/

namespace Sys2Proof

section
variable {w : Word}

theorem decode_rti (ho : opcodeField w = 0b1000#4) : decode w = .rti := by
  simp [decode, ho]

theorem decode_res (ho : opcodeField w = 0b1101#4) : decode w = .res := by
  simp [decode, ho]

end

namespace Machine

theorem exec_rti (s : State) : exec .rti s = .next s := rfl

theorem exec_res (s : State) : exec .res s = .next s := rfl

/-- Settles O27: the opcode alone selects RTI and RES, and neither has an effect. -/
theorem rtiAndResDoNothing : Obligations.RtiAndResDoNothing :=
  ⟨fun _ => decode_rti, fun _ => decode_res, fun s => ⟨exec_rti s, exec_res s⟩⟩

end Machine

end Sys2Proof
end

section
/-! PROOFS. The agents' turns (60_exceptions R242, R250, R251, R255, R260): what a step is on each of them, what a stop
leaves to the core, and that Exited is final. -/

namespace Sys2Proof.Machine

/-! ## A step by whose turn it is -/

section
variable {s : State}

theorem step_of_turnOf {a : Agent} (ht : turnOf s = a) : step s = agentStep a (takeTurn s) := by
  rw [step, machineStep, ht]

theorem step_cancel (ht : turnOf s = .cancel) : step s = .next (cancelWait (takeTurn s)) := step_of_turnOf ht

theorem step_keyboard (ht : turnOf s = .keyboard) : step s = .next (keyAgentStep (takeTurn s)) := step_of_turnOf ht

theorem step_stop (ht : turnOf s = .stop) : step s = .next (stopRequest (takeTurn s)) := step_of_turnOf ht

theorem step_core_exited (ht : turnOf s = .core) (hp : s.phase = .exited) : step s = .next (takeTurn s) := by
  have hphase : (takeTurn s).phase = .exited := hp
  simp only [step_of_turnOf ht, agentStep, coreStep, hphase]

/-! ## The keyboard agent -/

/-- With a full buffer, no input, or a stop that its wait does not outlast, the agent has no step. -/
theorem keyAgentStep_of_disabled
    (h : s.keyBuf ≠ none ∨ s.kbdIn = [] ∨ (s.stopRequested = true ∧ waitsForKey s ≠ true)) : keyAgentStep s = s := by
  rcases keyAgentStep_cases s with he | ⟨b, rest, hk, hi, hs, -⟩
  · exact he
  · rcases h with hfull | hempty | ⟨hstop, hwait⟩
    · exact absurd hk hfull
    · simp [hi] at hempty
    · exact absurd (hs.resolve_left (by simp [hstop])) hwait

theorem not_waitsForKey (h : (∀ r, s.phase ≠ .waitKey r) ∨ s.params.stopCancelsWait = some true) :
    waitsForKey s ≠ true := by
  intro hw
  obtain ⟨⟨r, hr⟩, hc⟩ := (waitsForKey_iff s).mp hw
  exact h.elim (fun hp => hp r hr) hc

/-- Settles O43: the agent's turn where it is enabled, and where it is not. -/
theorem keyboardAgentFillsBuffer : Obligations.KeyboardAgentFillsBuffer := by
  intro s ht
  rw [step_keyboard ht]
  refine ⟨fun b rest hk hi hs => ?_, fun h => ?_⟩
  · exact congrArg _ (keyAgentStep_puts (takeTurn s) b rest hk hi (hs.imp_right (waitsForKey_iff (takeTurn s)).mpr))
  · exact congrArg _ (keyAgentStep_of_disabled (s := takeTurn s)
      (h.imp_right (Or.imp_right (And.imp_right not_waitsForKey))))

/-! ## The stop agent and the cancelled wait -/

theorem stopRequest_of_exited (hp : s.phase = .exited) : stopRequest s = s := if_pos hp

theorem stopRequest_before_exited (hp : s.phase ≠ .exited) :
    stopRequest s =
      { s with running := false, stopRequested := true, cause := if s.running then some .stopRequest else s.cause } := by
  rw [stopRequest, if_neg hp, clearRunning_eq]

/-- Settles O44: the stop's turn before Exited and after it, and the stopped branch of the core's next iteration. -/
theorem stopRequestClearsRunning : Obligations.StopRequestClearsRunning := by
  have hstop {s : State} (ht : turnOf s = .stop) (hp : s.phase ≠ .exited) :=
    (step_stop ht).trans (congrArg Host.Outcome.next (stopRequest_before_exited (s := takeTurn s) hp))
  refine ⟨fun s => hstop, fun s ht hp => ?_, fun s t ht hp h hcore => ?_⟩
  · exact (step_stop ht).trans (congrArg _ (stopRequest_of_exited hp))
  · rw [hstop ht (by simp [hp])] at h
    injection h with h
    subst h
    exact step_stopped hcore hp rfl

theorem cancelWait_of_mayCancel (h : mayCancel s = true) : cancelWait s = { s with phase := .exited } := if_pos h

theorem cancelWait_of_not_mayCancel (h : mayCancel s ≠ true) : cancelWait s = s := if_neg h

theorem waitStep_of_mustCancel (r : WaitRoutine) (h : mustCancel s = true) : waitStep r s = cancelWait s := if_pos h

end

/-- Settles O45: the parameter allows the cancel, forces it on the core's turn, or excludes it. -/
theorem stoppedWaitCancels : Obligations.StoppedWaitCancels := by
  intro s r hp hr
  have hmay : s.params.stopCancelsWait ≠ some false → mayCancel (takeTurn s) = true :=
    fun hc => (mayCancel_iff (takeTurn s)).mpr ⟨⟨r, hp⟩, hr, hc⟩
  refine ⟨fun hc ht => ?_, fun hc ht => ?_, fun hc ht => ?_⟩
  · exact (step_cancel ht).trans (congrArg _ (cancelWait_of_mayCancel (hmay hc)))
  · have hcan : mayCancel (takeTurn s) = true := hmay (by simp [hc])
    have hmust : mustCancel (takeTurn s) = true := Bool.and_eq_true_iff.mpr ⟨hcan, beq_iff_eq.mpr hc⟩
    rw [step_core_waitKey ht hp, waitStep_of_mustCancel r hmust, cancelWait_of_mayCancel hcan]
  · have hnot : mayCancel (takeTurn s) ≠ true := by simp [mayCancel_iff, takeTurn, hc]
    exact (step_cancel ht).trans (congrArg _ (cancelWait_of_not_mayCancel hnot))

/-! ## Exited -/

/-- Once Exited only the keyboard agent moves anything, into an empty buffer. -/
theorem step_exited_cases {s : State} (hp : s.phase = .exited) :
    step s = .next (takeTurn s) ∨
    ∃ b rest, s.keyBuf = none ∧ step s = .next { takeTurn s with keyBuf := some b, kbdIn := rest } := by
  have hpt : (takeTurn s).phase = .exited := hp
  cases ht : turnOf s with
  | core => exact .inl (step_core_exited ht hp)
  | cancel =>
    rw [step_cancel ht, cancelWait_of_not_mayCancel (by simp [mayCancel_iff, hpt])]
    exact .inl rfl
  | stop =>
    rw [step_stop ht, stopRequest_of_exited hpt]
    exact .inl rfl
  | keyboard =>
    rw [step_keyboard ht]
    rcases keyAgentStep_cases (takeTurn s) with he | ⟨b, rest, hk, -, -, he⟩ <;> rw [he]
    · exact .inl rfl
    · exact .inr ⟨b, rest, hk, rfl⟩

/-- Settles O47: by the two cases of a step in phase Exited. -/
theorem exitedIsFinal : Obligations.ExitedIsFinal := by
  intro s hp
  rcases step_exited_cases hp with h | ⟨b, rest, hk, h⟩
  · exact ⟨_, h, rfl, fun _ => ⟨rfl, rfl⟩, rfl⟩
  · exact ⟨_, h, rfl, fun hfull => absurd hk hfull, rfl⟩

end Sys2Proof.Machine
end

section
/-! PROOFS. Keyboard servicing (60_exceptions R240, R241): when it stages a byte, and that it stages none over an unread
one. -/

namespace Sys2Proof.Machine

/-- With an empty buffer, or an unread byte in KBDR, keyboard servicing does nothing. -/
theorem keyboardService_of_idle {s : State} (h : s.keyBuf = none ∨ s.ready = true) : keyboardService s = s := by
  rcases keyboardService_cases s with he | ⟨b, hb, hr, -⟩
  · exact he
  · exact absurd h (by simp [hb, hr])

theorem keyboardService_stages {s : State} {b : Byte} (hb : s.keyBuf = some b) (hr : s.ready = false) :
    keyboardService s = stageByte b s := by
  simp [keyboardService, hb, hr]

/-- Settles O42: the running branch of the iteration, and the memory that staging leaves. -/
theorem keyboardServiceStagesByte : Obligations.KeyboardServiceStagesByte := by
  refine ⟨fun s => step_running, fun s b hb hr => ?_, fun s => keyboardService_of_idle⟩
  refine ⟨_, keyboardService_stages hb hr, rfl, ?_, ?_, fun a hs hd => ?_, stageByte_frame b s⟩ <;>
    rw [stageByte_memAt]
  · rw [if_neg (by decide), if_pos rfl]
  · exact if_pos rfl
  · rw [if_neg hd, if_neg hs]

/-! ## Memory outside an iteration -/

theorem cancelWait_mem (s : State) : (cancelWait s).mem = s.mem := by
  rcases cancelWait_cases s with h | ⟨-, h⟩ <;> rw [h]

theorem stopRequest_mem (s : State) : (stopRequest s).mem = s.mem := by
  rcases stopRequest_cases s with ⟨-, h⟩ | ⟨-, h⟩ <;> rw [h]
  rw [clearRunning_eq]

theorem keyAgentStep_mem (s : State) : (keyAgentStep s).mem = s.mem := by
  rcases keyAgentStep_cases s with h | ⟨b, rest, -, -, -, h⟩ <;> rw [h]

theorem waitStep_mem (r : WaitRoutine) (s : State) : (waitStep r s).mem = s.mem := by
  rcases waitStep_cases r s with ⟨-, h⟩ | ⟨-, h⟩ | ⟨b, -, ⟨-, h⟩ | h⟩ <;> rw [h]
  · exact cancelWait_mem s
  · rfl
  · rfl

/-- Only an iteration of the core reaches memory. -/
theorem step_mem_or_iteration {s t : State} (h : step s = .next t) :
    t.mem = s.mem ∨ fetchExecute (keyboardService (takeTurn s)) = .next t := by
  rcases step_cases s t h with ⟨-, -, -, hf⟩ | ⟨-, -, -, rfl⟩ | ⟨r, -, -, rfl⟩ | ⟨-, -, rfl⟩ | ⟨-, rfl⟩ | ⟨-, rfl⟩ |
    ⟨-, rfl⟩
  · exact .inr hf
  · exact .inl rfl
  · exact .inl (waitStep_mem r _)
  · exact .inl rfl
  · exact .inl (cancelWait_mem _)
  · exact .inl (keyAgentStep_mem _)
  · exact .inl (stopRequest_mem _)

/-- Settles O57: with READY set an iteration stages nothing, and its instruction leaves KBDR and the key bytes alone. -/
theorem unreadByteIsKept : Obligations.UnreadByteIsKept := by
  intro s t hready h
  have hidle : keyboardService (takeTurn s) = takeTurn s := keyboardService_of_idle (.inr hready)
  constructor
  · rcases step_mem_or_iteration h with hm | hf
    · exact congrArg (Memory.read · 0xFE02#16) hm
    · rw [hidle] at hf
      have hkbdr : t.kbdr = (takeTurn s).kbdr := fetchExecute_kbdr hf
      exact hkbdr
  · intro hp ht
    cases hr : s.running with
    | true =>
      rw [step_running ht hp hr, hidle] at h
      have hkeys : t.keys = (takeTurn s).keys := fetchExecute_keys h
      exact ⟨congrArg Prod.fst hkeys, congrArg Prod.snd hkeys⟩
    | false =>
      rw [step_stopped ht hp hr] at h
      injection h with h
      subst h
      exact ⟨rfl, rfl⟩

end Sys2Proof.Machine
end

section
/-! PROOFS. The stopped key wait that goes on (60_exceptions R251, 92_eei_decisions D10, log entries 6 and 18): the
keyboard agent's turn, then two of the core. -/

namespace Sys2Proof.Machine

section
variable {s : State}

theorem turnOf_of_cons {a : Agent} {more : List Agent} (h : s.schedule = a :: more) : turnOf s = a := by
  simp only [turnOf, h]

theorem turnOf_of_nil (h : s.schedule = []) : turnOf s = if hasCoreStep s then .core else .keyboard := by
  simp only [turnOf, h]

/-- The core moves where it is scheduled, and where nobody is and it has a step. -/
theorem turnOf_eq_core (hc : hasCoreStep s = true) (h : s.schedule = [] ∨ ∃ more, s.schedule = .core :: more) :
    turnOf s = .core := by
  rcases h with h | ⟨more, h⟩
  · exact (turnOf_of_nil h).trans (if_pos hc)
  · exact turnOf_of_cons h

/-- The keyboard agent moves where it is scheduled, and where nobody is and the core has no step. -/
theorem turnOf_eq_keyboard (hc : hasCoreStep s = false) (h : s.schedule = [] ∨ ∃ more, s.schedule = .keyboard :: more) :
    turnOf s = .keyboard := by
  rcases h with h | ⟨more, h⟩
  · exact (turnOf_of_nil h).trans (if_neg (by simp [hc]))
  · exact turnOf_of_cons h

theorem hasCoreStep_boundary (hp : s.phase = .boundary) : hasCoreStep s = true := by
  simp only [hasCoreStep, hp]

theorem hasCoreStep_waitKey {r : WaitRoutine} (hp : s.phase = .waitKey r) :
    hasCoreStep s = (s.keyBuf.isSome || mustCancel s) := by
  simp only [hasCoreStep, hp]

/-- A wait that is not cancelled takes its byte into R0; IN echoes it first, on a sink that accepts. -/
theorem waitStep_delivers {r : WaitRoutine} {b : Byte} (hc : mustCancel s = false) (hk : s.keyBuf = some b)
    (ha : r = .getc ∨ SinkAccepts 1 s) :
    waitStep r s = deliverKey b (accepted { s with keyBuf := none } (if r = .getc then [] else [b])) := by
  cases r with
  | getc => exact (waitStep_getc hc hk).trans (congrArg _ (accepted_nil _).symm)
  | input =>
    have hsink : SinkAccepts [b].length { s with keyBuf := none } := ha.resolve_left (by simp)
    exact (waitStep_input hc hk).trans (emitAll_thenDo_of_accepts _ hsink)

end

/-- s, in a key wait, after the keyboard agent put the byte b and left the input rest. -/
def afterKeyPut (s : State) (b : Byte) (rest : List Byte) : State :=
  { takeTurn s with keyBuf := some b, kbdIn := rest }

/-- s, in the key wait of r, after the core then took the byte b. -/
def afterKeyTaken (s : State) (r : WaitRoutine) (b : Byte) (rest : List Byte) : State :=
  deliverKey b (accepted { takeTurn (afterKeyPut s b rest) with keyBuf := none } (if r = .getc then [] else [b]))

section
variable {s : State} {r : WaitRoutine} {b : Byte} {rest : List Byte}

/-- The keyboard agent's turn and the core's are used up. -/
theorem afterKeyTaken_schedule : (afterKeyTaken s r b rest).schedule = s.schedule.drop 2 :=
  calc s.schedule.tail.tail = s.schedule.tail.drop 1 := List.drop_one.symm
    _ = s.schedule.drop 2 := List.drop_tail

/-- The byte went through the buffer, which is empty again. -/
theorem afterKeyTaken_frame (hk : s.keyBuf = none) :
    afterKeyTaken s r b rest = { accepted s (if r = .getc then [] else [b]) with
      regs := (afterKeyTaken s r b rest).regs, cc := (afterKeyTaken s r b rest).cc, kbdIn := rest, phase := .boundary,
      schedule := s.schedule.drop 2 } := by
  have hbuf : (accepted s (if r = .getc then [] else [b])).keyBuf = none := hk
  simp only [hbuf, ← afterKeyTaken_schedule (r := r) (b := b) (rest := rest)]
  rfl

variable (hp : s.phase = .waitKey r)
include hp

/-- The first of the three turns. -/
theorem step_wait_puts (hc : s.params.stopCancelsWait ≠ some true) (hk : s.keyBuf = none) (hi : s.kbdIn = b :: rest)
    (hs : s.schedule = [] ∨ ∃ more, s.schedule = .keyboard :: more) : step s = .next (afterKeyPut s b rest) := by
  have hnone : hasCoreStep s = false := by rw [hasCoreStep_waitKey hp, hk, mustCancel_eq_false (.inr hc)]; rfl
  have hwait : waitsForKey (takeTurn s) = true := (waitsForKey_iff _).mpr ⟨⟨r, hp⟩, hc⟩
  rw [step_keyboard (turnOf_eq_keyboard hnone hs)]
  exact congrArg _ (keyAgentStep_puts (takeTurn s) b rest hk hi (.inr hwait))

/-- The second turn. -/
theorem step_wait_takes (hc : s.params.stopCancelsWait ≠ some true) (ha : r = .getc ∨ SinkAccepts 1 s)
    (hs : s.schedule.tail = [] ∨ ∃ more, s.schedule.tail = .core :: more) :
    step (afterKeyPut s b rest) = .next (afterKeyTaken s r b rest) := by
  have hcore : hasCoreStep (afterKeyPut s b rest) = true := hasCoreStep_waitKey hp
  rw [step_core_waitKey (turnOf_eq_core hcore hs) hp]
  exact congrArg _ (waitStep_delivers (mustCancel_eq_false (.inr hc)) rfl ha)

end

/-- The third turn: the wait has ended at a boundary, with `running` clear. -/
theorem step_after_wait_exits {s : State} {r : WaitRoutine} {b : Byte} {rest : List Byte} (hr : s.running = false)
    (hs : s.schedule.tail.tail = [] ∨ ∃ more, s.schedule.tail.tail = .core :: more) :
    step (afterKeyTaken s r b rest) = .next { takeTurn (afterKeyTaken s r b rest) with phase := .exited } :=
  step_stopped (turnOf_eq_core (hasCoreStep_boundary rfl) hs) rfl hr

/-- Settles O46: the keyboard agent puts the byte, the core takes it, and then exits. -/
theorem stoppedWaitCompletesOnNextByte : Obligations.StoppedWaitCompletesOnNextByte := by
  intro s r b rest hp hr hc hk hi hs ha
  refine ⟨afterKeyPut s b rest, afterKeyTaken s r b rest, step_wait_puts hp hc hk hi ?_, step_wait_takes hp hc ha ?_,
    writesReg_deliverKey b _, flagsOf_deliverKey b _, ?_, (step_after_wait_exits hr ?_).trans ?_⟩
  · exact hs.imp_right fun ⟨more, h⟩ => ⟨_, h⟩
  · exact hs.imp (fun h => by simp [h]) fun ⟨more, h⟩ => ⟨_, by rw [h]; rfl⟩
  · exact afterKeyTaken_frame hk
  · exact hs.imp (fun h => by simp [h]) fun ⟨more, h⟩ => ⟨_, by rw [h]; rfl⟩
  · rw [takeTurn, afterKeyTaken_schedule, List.tail_drop]

end Sys2Proof.Machine
end

section
/-! PROOFS. What a row of Emits does (60_exceptions R253, 43_trap R201), and that no step stops the machine
(60_exceptions R230, 30_encoding R90). -/

namespace Sys2Proof.Machine

/-- Settles O30: the sink takes every byte, or there is a first one on which it fails. -/
theorem emitsStopAtFirstFailure : Obligations.EmitsStopAtFirstFailure :=
  fun bs s => ⟨emitAll_accepts bs s, emitAll_fails bs s, sinkAccepts_or_fails bs.length s⟩

/-- Every instruction answers: the string routines find a zero word, and no other one can fault or be refused. -/
theorem State.Inv.exec_answers {s : State} (h : s.Inv) (i : Instr) : ∃ t, exec i s = .next t := by
  obtain ⟨hputs, hputsp⟩ := stringRoutinesComplete s h
  cases i with
  | trapPuts => exact hputs
  | trapPutsp => exact hputsp
  | trap v =>
    cases hv : isServiceVector v with
    | false => exact ⟨s, exec_trap_of_not_service hv s⟩
    | true =>
      rcases (isServiceVector_iff v).mp hv with rfl | rfl | rfl | rfl | rfl | rfl
      exacts [⟨_, rfl⟩, ⟨_, rfl⟩, hputs, ⟨_, rfl⟩, hputsp, ⟨_, rfl⟩]
  | _ => exact ⟨_, rfl⟩

theorem State.Inv.iterate_answers {s : State} (h : s.Inv) : ∃ t, iterate s = .next t := by
  unfold iterate
  split
  case isTrue => exact ((h.keyboardService.memRead _).setPc _).exec_answers _
  case isFalse => exact ⟨_, rfl⟩

/-- Settles O50: only an iteration executes an instruction, and it does so in a state that meets the invariant. -/
theorem stepAlwaysAnswers : Obligations.StepAlwaysAnswers := by
  intro s h
  cases ht : turnOf s with
  | cancel => exact ⟨_, step_cancel ht⟩
  | keyboard => exact ⟨_, step_keyboard ht⟩
  | stop => exact ⟨_, step_stop ht⟩
  | core =>
    cases hp : s.phase with
    | boundary => exact (step_core_boundary ht hp).symm ▸ h.takeTurn.iterate_answers
    | waitKey r => exact ⟨_, step_core_waitKey ht hp⟩
    | exited => exact ⟨_, step_core_exited ht hp⟩

end Sys2Proof.Machine
end

section
/-! PROOFS. What memory holds after the image loader (70_reset_and_hazards R276). -/

namespace Sys2Proof.Machine

/-- Below the cap the loader's address does not wrap. -/
theorem toNat_succ_of_lt_loaderCap {a : Word} (h : a < loaderCap) : (a + 1#16).toNat = a.toNat + 1 := by
  have hcap : a.toNat < 0xFE00 := h
  rw [BitVec.toNat_add, BitVec.toNat_one (by decide), Nat.mod_eq_of_lt (by omega)]

/-- The copy loop leaves the addresses before its start and those for which the buffer lacks a byte alone. -/
theorem loadWords_read_outside (a : Word) (buf : List Byte) (m : Memory) {d : Word}
    (hd : d < a ∨ buf.length ≤ 2 * (d.toNat - a.toNat) + 1) : (loadWords a buf m).read d = m.read d := by
  induction a, buf, m using loadWords.induct with
  | case1 a hi lo rest m ha ih =>
    have hsucc := toNat_succ_of_lt_loaderCap ha
    rw [BitVec.lt_def, List.length_cons, List.length_cons] at hd
    have hne : d ≠ a := by rintro rfl; omega
    rw [loadWords, if_pos ha, ih (by rw [BitVec.lt_def]; omega), Memory.read_write, if_neg hne]
  | case2 a hi lo rest m ha => rw [loadWords, if_neg ha]
  | case3 => rfl
  | case4 => rfl

/-- The `k`th word of the buffer stands `k` words after the start: later words go to later addresses, so none is
overwritten. -/
theorem loadWords_read_placed (a : Word) (buf : List Byte) (m : Memory) {d : Word} (k : Nat)
    (hk : d.toNat = a.toNat + k) (hd : d < loaderCap) (hbuf : 2 * k + 1 < buf.length) :
    (loadWords a buf m).read d = bigEndian (buf.getD (2 * k) 0#8) (buf.getD (2 * k + 1) 0#8) := by
  induction a, buf, m using loadWords.induct generalizing k with
  | case1 a hi lo rest m ha ih =>
    have hsucc := toNat_succ_of_lt_loaderCap ha
    rw [loadWords, if_pos ha]
    cases k with
    | zero =>
      obtain rfl : d = a := BitVec.eq_of_toNat_eq hk
      rw [loadWords_read_outside _ _ _ (.inl (by rw [BitVec.lt_def]; omega)), Memory.read_write, if_pos rfl]
      rfl
    | succ k => exact ih k (by omega) (Nat.lt_of_add_lt_add_right (n := 2) hbuf)
  | case2 a hi lo rest m ha =>
    rw [BitVec.lt_def] at ha hd
    omega
  | case3 => simp at hbuf
  | case4 => simp at hbuf

theorem loadImage_of_length_lt {buf : List Byte} (hlen : buf.length < 4) (m : Memory) :
    loadImage buf m = .error .fileTooShort := by
  rcases loadImage_cases buf m with ⟨-, hl⟩ | ⟨hi, lo, b0, b1, rest, rfl, -⟩
  · exact hl
  · exact absurd hlen (by simp)

/-- What loads is an origin of two bytes, and the copy loop runs over the bytes behind it. -/
theorem loadImage_of_four_le {buf : List Byte} (hlen : 4 ≤ buf.length) (m : Memory) :
    ∃ hi lo body, buf = hi :: lo :: body ∧ loadImage buf m = .ok (loadWords (bigEndian hi lo) body m) := by
  rcases loadImage_cases buf m with ⟨hshort, -⟩ | ⟨hi, lo, b0, b1, rest, hbuf, hl⟩
  · exact absurd hlen (Nat.not_le.mpr hshort)
  · exact ⟨hi, lo, _, hbuf, hl⟩

/-- Settles O58: the copy loop starts behind the origin's two bytes, so its offsets are two less than the buffer's. -/
theorem loaderPlacesImage : Obligations.LoaderPlacesImage := by
  refine ⟨fun buf m hlen => loadImage_of_length_lt hlen m, fun buf m origin hlen horigin => ?_⟩
  obtain ⟨hi, lo, body, rfl, hl⟩ := loadImage_of_four_le hlen m
  obtain rfl : origin = bigEndian hi lo := horigin
  refine ⟨_, hl, fun a => ⟨fun hge hcap hbuf => ?_, ?_⟩⟩
  · have hbody : 2 * (a.toNat - (bigEndian hi lo).toNat) + 1 < body.length := Nat.lt_of_add_lt_add_right (n := 2) hbuf
    exact loadWords_read_placed _ _ _ _ (Nat.add_sub_of_le hge).symm hcap hbody
  · rintro (hbefore | hcap | hend)
    · exact loadWords_read_outside _ _ _ (.inl hbefore)
    · exact loadWords_read_of_ge _ _ _ hcap
    · exact loadWords_read_outside _ _ _ (.inr (Nat.le_of_add_le_add_right (b := 2) hend))

end Sys2Proof.Machine
end
